-- ==== Sys2Proof/Machine/Constants.lean ====
section
/-! DEFINITION. The one configuration record of what the source fixes (00_scope.md R5), with the two CRC parameters the spec
decides (R6, D1, D2). The types and the definitions of the model take these values from it and repeat no literal, so that a
later audit of a literal changes one line (R2). -/

namespace Sys2Proof.Machine

/-- The parameters of R5, and `CRC_INIT` and `CRC_XOROUT` of R6. -/
structure Protocol where
  /-- `PACKET_SIZE`: bytes in one frame. -/
  packetSize : Nat
  /-- `HEADER`: frame bytes 0, 1, 2 (R81). -/
  header : List (BitVec 8)
  /-- `HEADER_LEN`. -/
  headerLen : Nat
  /-- `POLY`: the generator polynomial, the x^8 term implicit (R110). -/
  poly : BitVec 8
  /-- `CRC_TABLE_SIZE`: entries of the CRC table (R23). -/
  crcTableSize : Nat
  /-- `CRC_FIRST`: frame offset of the first byte the CRC covers. -/
  crcFirst : Nat
  /-- `CRC_LAST`: frame offset of the last byte the CRC covers, inclusive (conflict C1). -/
  crcLast : Nat
  /-- `CRC_POS`: frame offset of the CRC byte. -/
  crcPos : Nat
  /-- `N_CH`: channels per frame. -/
  numChannels : Nat
  /-- `CH_BITS`: bits per channel. -/
  chBits : Nat
  /-- `CH_MASK`: the mask of one channel. -/
  chMask : Nat
  /-- `CH_BASE`: frame offset where the channel region begins. -/
  chBase : Nat
  /-- `RATE_WINDOW`, in seconds. -/
  rateWindow : Nat
  /-- `CRC_INIT` (D1). -/
  crcInit : BitVec 8
  /-- `CRC_XOROUT` (D2). -/
  crcXorOut : BitVec 8
  deriving DecidableEq, Repr

/-- The values of R5, and of D1 and D2. -/
abbrev protocol : Protocol where
  packetSize := 26
  header := [0xC8#8, 0x18#8, 0x16#8]
  headerLen := 3
  poly := 0xD5#8
  crcTableSize := 256
  crcFirst := 2
  crcLast := 24
  crcPos := 25
  numChannels := 16
  chBits := 11
  chMask := 0x7FF
  chBase := 3
  rateWindow := 1
  crcInit := 0x00#8
  crcXorOut := 0x00#8

/-- Bytes of the channel region, frame offsets 3..24 (R59): the channels without padding (R5, R52). -/
abbrev regionLen : Nat :=
  protocol.numChannels * protocol.chBits / 8

end Sys2Proof.Machine
end

