-- ==== Sys2Proof/Word.lean ====
section
/-! DEFINITION. The word types of the block: the 8-bit byte (the unit of the input stream, of frames and of the CRC)
and the 11-bit channel value, and the vector of the sixteen channels (00_scope.md R5, R7; 10_state.md R21). -/

namespace Sys2Proof

/-- A byte: 8 bits, unsigned; bit 0 is the least significant bit (R7). -/
abbrev Byte := BitVec 8

/-- One channel value: 11 bits, unsigned, 0..2047 (R21; `CH_BITS` of R5). -/
abbrev Chan := BitVec Machine.protocol.chBits

/-- The sixteen channel values in the order of the channel index (R21; `N_CH` of R5). -/
abbrev ChannelSet := Vector Chan Machine.protocol.numChannels

end Sys2Proof
end

