-- ==== Sys2Proof/Machine/CrcUnit.lean ====
section
/-! DEFINITION. The CRC-8 checker as pure functions (40_crc8.md R110 to R117): the ROM, one update, the CRC of a byte
sequence, and the span of a frame it covers. -/

namespace Sys2Proof.Machine

/-- One step of the table construction of R111: shift left, and exclusive-or the polynomial when the high bit was 1. -/
def crcShift (c : Byte) : Byte :=
  if c.msb then (c <<< 1) ^^^ protocol.poly else c <<< 1

/-- `n` steps of the construction. -/
def crcShifts : Nat → Byte → Byte
  | 0, c => c
  | n + 1, c => crcShifts n (crcShift c)

/-- `TABLE_ENTRY(i)` of R111, eight steps. -/
def tableEntry (i : Byte) : Byte :=
  crcShifts 8 i

/-- `TABLE` (R23, R111): the ROM, `CRC_TABLE_SIZE` entries; a constant, which no operation writes (R66, D21). -/
def crcTable : List Byte :=
  (List.range protocol.crcTableSize).map fun i => tableEntry (BitVec.ofNat 8 i)

/-- `CRC8_UPDATE(crc, b) = TABLE[crc ^ b]` (R112, D3); the index is always in 0..255. -/
def crc8Update (crc b : Byte) : Byte :=
  crcTable.getD (crc ^^^ b).toNat 0

/-- `CRC8(m)` (R113): the bytes in ascending order from `CRC_INIT`, then `CRC_XOROUT`. -/
def crc8 (m : List Byte) : Byte :=
  m.foldl crc8Update protocol.crcInit ^^^ protocol.crcXorOut

/-- The bytes of a frame the CRC covers: offsets `CRC_FIRST`..`CRC_LAST` inclusive (R59, R114; conflict C1). -/
def crcSpan (f : List Byte) : List Byte :=
  (f.drop protocol.crcFirst).take (protocol.crcLast + 1 - protocol.crcFirst)

/-- `CRCCHK F` (R114): the computed CRC equals the byte at `CRC_POS`. -/
def crcOk (f : List Byte) : Bool :=
  crc8 (crcSpan f) == f.getD protocol.crcPos 0

/-- One step of the bit-serial form of R117, for one message bit. -/
def crcBit (crc : Byte) (bit : Bool) : Byte :=
  let fb := crc.msb ^^ bit
  if fb then (crc <<< 1) ^^^ protocol.poly else crc <<< 1

/-- The bit-serial checker of R117 over one message byte, most significant bit first (R53). -/
def crcBitSerial (crc b : Byte) : Byte :=
  [7, 6, 5, 4, 3, 2, 1, 0].foldl (fun c j => crcBit c (b.getLsbD j)) crc

end Sys2Proof.Machine
end

