-- ==== Sys2Proof/Machine/ChannelUnit.lean ====
section
/-! DEFINITION. The channel unpacker and its inverse as pure functions: the lane formula of 43_channel_decoder.md R171
(30_encoding.md R84), and the test bench's `PACK` of 30_encoding.md R94. -/

namespace Sys2Proof.Machine

/-- `F[k]` as a natural number (R8); the decoder reads offsets 3..24 only (R173). -/
def frameByte (f : List Byte) (k : Nat) : Nat :=
  (f.getD k 0).toNat

/-- The OR of the two or three terms of lane `i`, before the mask (R171), on natural numbers (R176, D15). -/
def laneCombined (f : List Byte) (i : Nat) : Nat :=
  let bitPosition := i * protocol.chBits
  let byteIndex := protocol.chBase + bitPosition / 8
  let bitShift := bitPosition % 8
  let combined := (frameByte f byteIndex >>> bitShift) ||| (frameByte f (byteIndex + 1) <<< (8 - bitShift))
  if bitShift > 5 then combined ||| (frameByte f (byteIndex + 2) <<< (16 - bitShift)) else combined

/-- The value of lane `i`: the OR masked with `CH_MASK` (R171). -/
def laneValue (f : List Byte) (i : Nat) : Nat :=
  laneCombined f i &&& protocol.chMask

/-- The sixteen lanes of a 26-byte frame (R171); the length check is `Sys2Proof.Machine.decodeFrame`. -/
def unpackChannels (f : List Byte) : ChannelSet :=
  Vector.ofFn fun i => BitVec.ofNat protocol.chBits (laneValue f i.val)

/-- The number `B` of R94, `v[0] + 2^11 * v[1] + …`, written by its recursion. -/
def packBits : List Chan → Nat
  | [] => 0
  | c :: cs => c.toNat + packBits cs <<< protocol.chBits

/-- The 22 bytes of the channel region: `F[3 + k] = (B >> (8*k)) & 0xFF` (R94). -/
def regionBytes (v : ChannelSet) : List Byte :=
  (List.range regionLen).map fun k => BitVec.ofNat 8 (packBits v.toList >>> (8 * k))

/-- The 26 bytes of the frame format `F26` with given channels and a given byte in the `crc` field (R80). -/
def frameBytes (v : ChannelSet) (crc : Byte) : List Byte :=
  protocol.header ++ regionBytes v ++ [crc]

/-- The CRC byte a frame with these channels must carry (R83). -/
def frameCrc (v : ChannelSet) : Byte :=
  crc8 (crcSpan (frameBytes v 0))

/-- `FRAME(v)` of R94: the valid frame with these channels. -/
def packFrame (v : ChannelSet) : List Byte :=
  frameBytes v (frameCrc v)

end Sys2Proof.Machine
end

