-- ==== Sys2Proof/Syntax.lean ====
section
/-! DEFINITION. The syntax of the block: one constructor per row of spec/opcode_table.json (30_encoding.md R80, R87, R91,
R92, R94). The block has no instruction set; the rows are the wire frame, which alone has a bit encoding, and the named
operations. -/

namespace Sys2Proof

/-- The rows of the opcode table. -/
inductive Instr where
  /-- `FRAME.RC16` (R80): 26 bytes with the header, these channels and this byte in the `crc` field. -/
  | frameRc16 (ch : ChannelSet) (crc : Byte)
  /-- `RESET` (R230). -/
  | reset
  /-- `APPEND s` (R131). -/
  | append (s : List Byte)
  /-- `PUSH b` (R132). -/
  | push (b : Byte)
  /-- `DISCARD n` (R133). -/
  | discard (n : Nat)
  /-- `FIND` (R142). -/
  | find
  /-- `CRC8.UPDATE c b` (R112). -/
  | crc8Update (c b : Byte)
  /-- `CRC8 m` (R113). -/
  | crc8 (m : List Byte)
  /-- `CRCCHK F` (R114): a 26-byte candidate. -/
  | crcchk (f : Vector Byte Machine.protocol.packetSize)
  /-- `SYNC` (R141). -/
  | sync
  /-- `SYNC.WAIT` (R143). -/
  | syncWait
  /-- `SYNC.SLIDE` (R144). -/
  | syncSlide
  /-- `SYNC.ACCEPT` (R145). -/
  | syncAccept
  /-- `SYNC.REJECT` (R146). -/
  | syncReject
  /-- `DRAIN` (R148). -/
  | drain
  /-- `DECODE F` (R171): the operand is a byte sequence of any length, since R175 says what a wrong length does. -/
  | decode (f : List Byte)
  /-- `PUBLISH v` (R147). -/
  | publish (v : ChannelSet)
  /-- `SNAP` (R179). -/
  | snap
  /-- `RECORD_FRAME now` (R191): `now` in ticks (D11). -/
  | recordFrame (now : Nat)
  /-- `READ_FPS` (R193). -/
  | readFps
  /-- `FEED s` (R92). -/
  | feed (s : List Byte)
  /-- `FEED1 s` (R92). -/
  | feed1 (s : List Byte)
  /-- `PACK v` (R94), the test bench's encoder. -/
  | pack (v : ChannelSet)
  deriving DecidableEq, Repr

end Sys2Proof
end

