-- ==== Sys2Proof/Decode.lean ====
section
/-! DEFINITION. The decoder of the one thing that has a bit encoding, the wire frame (30_encoding.md R80 to R90), total on
any bytes and refusing by name; after it the encoder, and the host's `decodeTableWord`. A frame is recognised by its
header (R87); whether its CRC holds is left to the instruction's meaning and to `Instr.wellFormed`. -/

namespace Sys2Proof

/-- Why a byte sequence does not decode. -/
inductive DecodeError where
  /-- Fewer than `PACKET_SIZE` bytes: not enough for a frame (R90). -/
  | tooShort
  /-- The first three bytes are not the header: noise, not an encoding (R81, R88). -/
  | noHeader
  deriving DecidableEq, Repr

/-- Whether a byte sequence begins with the header, all 24 bits of it (R81, R87). -/
def startsWithHeader (bs : List Byte) : Bool :=
  Machine.protocol.header.isPrefixOf bs

/-- The frame row's instruction at the head of a byte sequence, with the bytes after it (R80, R82, R83). -/
def decode (bs : List Byte) : Except DecodeError (Instr × List Byte) :=
  if bs.length < Machine.protocol.packetSize then .error .tooShort
  else if startsWithHeader bs then
    .ok (.frameRc16 (Machine.unpackChannels bs) (bs.getD Machine.protocol.crcPos 0), bs.drop Machine.protocol.packetSize)
  else .error .noHeader

/-- The bytes of an instruction: the 26 bytes of the frame; the operations have no encoding (R87; notes/assumptions 25). -/
def encode : Instr → Option (List Byte)
  | .frameRc16 ch crc => some (Machine.frameBytes ch crc)
  | .reset => none
  | .append _ => none
  | .push _ => none
  | .discard _ => none
  | .find => none
  | .crc8Update _ _ => none
  | .crc8 _ => none
  | .crcchk _ => none
  | .sync => none
  | .syncWait => none
  | .syncSlide => none
  | .syncAccept => none
  | .syncReject => none
  | .drain => none
  | .decode _ => none
  | .publish _ => none
  | .snap => none
  | .recordFrame _ => none
  | .readFps => none
  | .feed _ => none
  | .feed1 _ => none
  | .pack _ => none

/-- The 26 bytes of a number read with bit 0 the least significant bit of byte 0 (R82, 95_test_vectors.md 4.3); only the
number's low `nbits` bits are used. -/
def tableBytes (nbits w : Nat) : List Byte :=
  (List.range Machine.protocol.packetSize).map fun k => BitVec.ofNat 8 ((w % 2 ^ nbits) >>> (8 * k))

/-- The instruction the decoder reads from the bits `w` of an opcode-table row. -/
def decodeTableWord (nbits w : Nat) : Option Instr :=
  match decode (tableBytes nbits w) with
  | .ok (i, _) => some i
  | .error _ => none

end Sys2Proof
end

