-- ==== Sys2Proof/Machine/Operands.lean ====
section
/-! DEFINITION. The operand forms of the block's operations: the accumulator read by offset (`MemRead`), a header
occurrence, and the search for the first one (00_scope.md R8; 30_encoding.md R81; 42_synchronizer.md R142). -/

namespace Sys2Proof.Machine

/-- `MemRead(k, n)` (R8): `n` bytes from offset `k`; the spec defines it only for `k + n <= ACC.len`, and there it has `n`
bytes. -/
def memRead (acc : List Byte) (k n : Nat) : List Byte :=
  (acc.drop k).take n

/-- Offset `k` is a header occurrence (R81). -/
def headerAt (acc : List Byte) (k : Nat) : Bool :=
  memRead acc k protocol.headerLen == protocol.header

/-- `FIND()` (R142): the lowest offset that is a header occurrence. -/
def findHeader : List Byte → Option Nat
  | [] => none
  | b :: bs => if headerAt (b :: bs) 0 then some 0 else (findHeader bs).map (· + 1)

/-- The instruction at the head of the accumulator, if the decoder reads one there. -/
def fetch (acc : List Byte) : Option Instr :=
  match decode acc with
  | .ok (i, _) => some i
  | .error _ => none

end Sys2Proof.Machine
end

