-- ==== Sys2Proof/Config.lean ====
section
/-! DEFINITION. What an implementation of the block fixes (the open parameters of 00_scope.md R6), as one plain record, and
the free values: what the spec leaves open at a point where the machine goes on. Each free value is a constant with no
body, so no proof can rest on what it is. The protocol constants of R5 stand in `Sys2Proof/Machine/Constants.lean`. -/

namespace Sys2Proof.Config

/-- `FPS_FORMAT` (R6, R194, D11): how the exact quotient is turned into the number an implementation holds. -/
inductive FpsFormat where
  /-- The reference model's choice: the exact rational. -/
  | exact
  /-- Some other number format; `k` only tells one from another, its rounding is a free value. -/
  | other (k : Nat)
  deriving DecidableEq, Repr

/-- The open parameters of R6. One record belongs to one implementation and no operation writes it. -/
structure Params where
  /-- `ACC_CAP` (D4): the accumulator's capacity in bytes, at least 26, or `none` for unbounded. -/
  accCap : Option Nat
  /-- `HAS_RATE_TRACKER` (D10): whether the optional unit is attached. -/
  hasRateTracker : Bool
  /-- `TICKS_PER_SECOND` (D11): positive. -/
  ticksPerSecond : Nat
  /-- `FPS_FORMAT` (D11). -/
  fpsFormat : FpsFormat
  deriving DecidableEq, Repr

/-- The bounds R6 sets on the parameters: `ACC_CAP >= 26`, one frame, where it is finite, `TICKS_PER_SECOND` positive. -/
abbrev Params.Legal (p : Params) : Prop :=
  (∀ c ∈ p.accCap, Machine.protocol.packetSize ≤ c) ∧ 0 < p.ticksPerSecond

/-- `CH_RESET` (R6, D5, U4): the sixteen values `CH` holds after the `n`-th `RESET`, under no law. -/
opaque chReset : Nat → ChannelSet

/-- The rounding of the number format `k` (R194, D11): under no law. -/
opaque fpsRounding : Nat → Rat → Rat

/-- `RT.last_reset` after the `n`-th `RECORD_FRAME` whose time went backwards (R195, D24, U6): under no law. -/
opaque anyLastReset : Nat → Nat

/-- `RT.count` after such a call (R195, D24, U6): under no law. -/
opaque anyCount : Nat → Nat

/-- `RT.fps` after such a call (R195, D24, U6), before it is bounded below by 0: under no law. -/
opaque anyFps : Nat → Rat

end Sys2Proof.Config
end

