-- ==== Sys2Proof/Machine/State.lean ====
section
/-! DEFINITION. The state of the block as plain data: everything 10_state.md R20 lists, and after it the model's own fields
(the parameters, the inputs of a step of R33, the value an operation hands to its agent, and two counters of free values).
Then the reasons a step can stop, and the state right after reset (R34). -/

namespace Sys2Proof.Machine

/-- The synchronizer phase (R25, R151). -/
inductive Phase where
  | searching
  | candidateFound
  | validating
  | accepted
  | rejected
  deriving DecidableEq, Repr

/-- The status register `FAULT` (R28), with the values R200 says are recorded. -/
inductive FaultStatus where
  | none
  /-- `F_DISCARD_OVERRUN`: `DISCARD n` with `n` greater than the accumulator's length `len`. -/
  | discardOverrun (n len : Nat)
  /-- `F_DECODE_LENGTH`: `DECODE` of `len` bytes. -/
  | decodeLength (len : Nat)
  deriving DecidableEq, Repr

/-- The RateTracker's registers (R30). -/
structure RateTracker where
  lastReset : Nat
  count : Nat
  fps : Rat
  deriving DecidableEq, Repr

/-- An entry `Accept(F, v)` of the event history (R32). -/
structure Accept where
  frame : List Byte
  channels : ChannelSet
  deriving DecidableEq, Repr

/-- The four outcomes of one `SYNC` iteration (R141). -/
inductive SyncOutcome where
  | wait
  | slide
  | accept
  | reject
  deriving DecidableEq, Repr

/-- The value an operation hands to the agent that performs it (the right-hand column of R91, and `PACK` of R94). -/
inductive Result where
  | none
  | start (k : Option Nat)
  | crc (c : Byte)
  | crcOk (ok : Bool)
  | outcome (o : SyncOutcome)
  | channels (v : ChannelSet)
  | fps (q : Rat)
  | frame (f : List Byte)
  deriving DecidableEq, Repr

/-- One operation an agent performs, with the time its `now` port shows then (R33). -/
structure Event where
  now : Nat
  op : Instr
  deriving DecidableEq, Repr

/-- The whole state. The fields from `params` on are the model's own. DESIGN CHOICE, notes/assumptions 3 to 7. -/
structure State where
  /-- `ACC`, the oldest byte first (R24); the block has no other memory (notes/assumptions 19). -/
  acc : List Byte
  /-- `CH[0..15]` (R21). -/
  ch : ChannelSet
  /-- `PHASE` (R25). -/
  phase : Phase
  /-- `FAULT` (R28). -/
  fault : FaultStatus
  /-- `RT` (R30); read and written only where `params.hasRateTracker`. -/
  rt : RateTracker
  /-- `HIST`, the oldest acceptance first (R32). -/
  hist : List Accept
  /-- The open parameters of R6; no operation writes them. -/
  params : Config.Params
  /-- The time the port `now` shows (R33, R93). -/
  now : Nat
  /-- The operations the agents will perform, the next one first (R33, R61). -/
  schedule : List Event
  /-- The value the last operation that has a result handed to its agent (R91). -/
  result : Result
  /-- How many values of `Config.chReset` have been drawn. -/
  chDraws : Nat
  /-- How many values of `Config.anyLastReset` and its companions have been drawn. -/
  rtDraws : Nat
  deriving DecidableEq, Repr

/-- Why the machine stops for good. -/
inductive Fault where
  /-- Raised by every mutating operation, and by the worker when nothing is scheduled, while `FAULT` is not none: the
  block is stopped until `RESET` (R203, U8). Safe: the spec gives the block no step there. DEDUCED, notes/assumptions 8. -/
  | stoppedByFault
  deriving DecidableEq, Repr

/-- Why a step has no meaning. -/
inductive Refusal where
  /-- Raised by an arm of `exec` whose instruction has no meaning yet; no arm does so now. Safe. -/
  | notModelled (mnemonic : String)
  /-- Raised by `APPEND`, `PUSH`, `FEED` and `FEED1` when a finite `ACC_CAP` would be exceeded (R131 (d), U3). Safe:
  the spec says the model refuses the step. DEDUCED, notes/assumptions 9. -/
  | capacityExceeded
  /-- Raised by `RECORD_FRAME` and `READ_FPS` when `HAS_RATE_TRACKER` is false: the operation does not exist then
  (R190, R193). Safe. DEDUCED, notes/assumptions 14. -/
  | noRateTracker
  /-- Raised by `SYNC.WAIT`, `SYNC.SLIDE`, `SYNC.ACCEPT` and `SYNC.REJECT` in a state whose outcome is another one: the
  spec gives an outcome no effect outside its condition (R141, R143 to R146). Safe. DESIGN CHOICE, notes/assumptions 10. -/
  | outcomeNotTaken
  /-- Raised by `FRAME.RC16` when the accumulator does not begin with that frame: there is no candidate to
  accept or reject (R83, R141). Safe. DESIGN CHOICE, notes/assumptions 11. -/
  | frameNotAtHead
  deriving DecidableEq, Repr

/-- The parameters the state after reset is given: the defaults of D4 (unbounded), D10 (absent) and the reference model of
D11 (exact), and, where the spec has no default, 1000 ticks a second. DESIGN CHOICE, unsafe, notes/assumptions 3. -/
def defaultParams : Config.Params :=
  { accCap := none, hasRateTracker := false, ticksPerSecond := 1000, fpsFormat := .exact }

/-- The block right after reset (R34, R231) with parameters `p`, any sixteen values `ch` in `CH` (`CH_RESET`, D5) and the time
`now` of the reset; nothing is scheduled. -/
def State.resetWith (p : Config.Params) (ch : ChannelSet) (now : Nat) : State :=
  { acc := [], ch := ch, phase := .searching, fault := .none,
    rt := { lastReset := now, count := 0, fps := 0 }, hist := [],
    params := p, now := now, schedule := [], result := .none, chDraws := 0, rtDraws := 0 }

/-- The machine right after reset: the default parameters, the time 0, and sixteen zeros in `CH`, which the spec does not
give. DESIGN CHOICE, unsafe, notes/assumptions 1 and 5. -/
def State.reset : State :=
  State.resetWith defaultParams (Vector.replicate _ 0) 0

end Sys2Proof.Machine
end

