-- ==== Sys2Proof/Machine/Flags.lean ====
section
/-! DEFINITION. The condition signals of one `SYNC` iteration, the flag analogue (10_state.md R26): they are computed from
the accumulator alone, in the order of the rule, and are no registers; and the decision R141 takes from them. -/

namespace Sys2Proof.Machine

/-- `enough` (R26 step 1). -/
def enough (acc : List Byte) : Bool :=
  protocol.packetSize ≤ acc.length

/-- `found` (R26 step 2). -/
def found (acc : List Byte) : Bool :=
  (findHeader acc).isSome

/-- `fits` for a match at `start` (R26 step 2). -/
def fitsAt (acc : List Byte) (start : Nat) : Bool :=
  protocol.packetSize ≤ acc.length - start

/-- `crc_ok` for a match at `start` (R26 step 3). -/
def crcOkAt (acc : List Byte) (start : Nat) : Bool :=
  crcOk (memRead acc start protocol.packetSize)

/-- What one `SYNC` iteration will do, with the match offset and the candidate it works on (R29). -/
inductive Decision where
  | wait
  | slide
  | accept (start : Nat) (frame : List Byte)
  | reject (start : Nat)
  deriving DecidableEq, Repr

/-- The decision for a complete candidate at `start` (R141). -/
def judgeCandidate (acc : List Byte) (start : Nat) : Decision :=
  if crcOkAt acc start then .accept start (memRead acc start protocol.packetSize) else .reject start

/-- The decision of one iteration, in the fixed order of R141. -/
def syncDecision (acc : List Byte) : Decision :=
  if enough acc then
    match findHeader acc with
    | none => .slide
    | some start => if fitsAt acc start then judgeCandidate acc start else .slide
  else .wait

/-- The outcome a decision stands for (R141). -/
def Decision.outcome : Decision → SyncOutcome
  | .wait => .wait
  | .slide => .slide
  | .accept _ _ => .accept
  | .reject _ => .reject

/-- The values `PHASE` passes through in an iteration with this outcome (the table of R151). -/
def phasePath : SyncOutcome → List Phase
  | .wait => [.searching]
  | .slide => [.searching, .searching]
  | .accept => [.searching, .candidateFound, .validating, .accepted, .searching]
  | .reject => [.searching, .candidateFound, .validating, .rejected, .searching]

end Sys2Proof.Machine
end

