-- ==== Sys2Proof/Machine/Ops.lean ====
section
/-! DEFINITION. The named operations over the state that the meanings are built from: the accumulator's two changes, the
channel registers, the event history, the rate tracker, fault entry and the return from it, and one `SYNC` iteration.
An operation that can raise a fault answers `Except FaultStatus`. -/

namespace Sys2Proof.Machine

/-! ## Fault entry and return -/

/-- Fault entry (60_exceptions.md R203): `FAULT` records the violation and nothing else changes. -/
def raiseFault (f : FaultStatus) (s : State) : State :=
  { s with fault := f }

/-- The way out of a fault, `RESET` (R207, R230, 10_state.md R34). `CH` takes a free value (`CH_RESET`, D5; DEDUCED,
notes/assumptions 2); the inputs of a step and the value handed over last stay (notes/assumptions 26). -/
def resetState (s : State) : State :=
  { s with
    acc := [], phase := .searching, fault := .none, hist := [],
    ch := Config.chReset s.chDraws, chDraws := s.chDraws + 1,
    rt := if s.params.hasRateTracker then { lastReset := s.now, count := 0, fps := 0 } else s.rt }

/-- A mutating operation is enabled only while `FAULT` is none; else the block is stopped (R203, U8; DEDUCED,
notes/assumptions 8). -/
def whenRunning (s : State) (k : Host.Outcome State Fault Refusal) : Host.Outcome State Fault Refusal :=
  if s.fault = .none then k else .fault .stoppedByFault

/-- The end of an atomic transition from `s` (R61): its last state, or fault entry from `s` itself, since the operation that
raised the fault has no other effect (R203; DEDUCED, notes/assumptions 15). -/
def commit (s : State) (r : Except FaultStatus State) : State :=
  match r with
  | .ok s' => s'
  | .error f => raiseFault f s

/-- The code of a fault, 0 for none (R200, D9). -/
def faultCode : FaultStatus → BitVec 2
  | .none => 0
  | .discardOverrun _ _ => 1
  | .decodeLength _ => 2

/-! ## The accumulator -/

/-- Adds bytes at the tail (41_accumulator.md R131). -/
def addTail (bs : List Byte) (s : State) : State :=
  { s with acc := s.acc ++ bs }

/-- Removes bytes at the head (R133). -/
def dropHead (n : Nat) (s : State) : State :=
  { s with acc := s.acc.drop n }

/-- `ACC_CAP` admits `n` bytes (R131, D4). -/
def capAdmits (p : Config.Params) (n : Nat) : Bool :=
  match p.accCap with
  | none => true
  | some cap => n ≤ cap

/-- `APPEND s` (R131). -/
def appendBytes (bs : List Byte) (s : State) : Host.Outcome State Fault Refusal :=
  whenRunning s <|
    if capAdmits s.params (s.acc.length + bs.length) then .next (addTail bs s) else .refused .capacityExceeded

/-- `DISCARD n` (R133). -/
def discardBytes (n : Nat) (s : State) : Except FaultStatus State :=
  if s.acc.length < n then .error (.discardOverrun n s.acc.length) else .ok (dropHead n s)

/-! ## Phase, channels, history, results -/

/-- `PHASE <- p` (R8). -/
def setPhase (p : Phase) (s : State) : State :=
  { s with phase := p }

/-- `DECODE F` (43_channel_decoder.md R171), with the length fault of R175. -/
def decodeFrame (f : List Byte) : Except FaultStatus ChannelSet :=
  if f.length = protocol.packetSize then .ok (unpackChannels f) else .error (.decodeLength f.length)

/-- `PUBLISH v` (42_synchronizer.md R147): all sixteen registers in one transition (20_memory.md R57 (a)). The acceptance event
is `emitAccept`'s, not its own (DEDUCED, notes/assumptions 22). -/
def publish (v : ChannelSet) (s : State) : State :=
  { s with ch := v }

/-- `emit Accept(F, v)` (R8, R32). -/
def emitAccept (f : List Byte) (v : ChannelSet) (s : State) : State :=
  { s with hist := s.hist ++ [{ frame := f, channels := v }] }

/-- Hands a value to the agent that performs the operation (R91). -/
def answer (r : Result) (s : State) : State :=
  { s with result := r }

/-! ## The rate tracker -/

/-- The number an implementation with this `FPS_FORMAT` holds for an exact quotient, never negative (R30, R194; DESIGN CHOICE,
notes/assumptions 16). -/
def roundFps : Config.FpsFormat → Rat → Rat
  | .exact, q => q
  | .other k, q => max 0 (Config.fpsRounding k q)

/-- `RT` after a call whose time is before `RT.last_reset`: unconstrained (R195, D24, U6; DEDUCED, notes/assumptions 17). -/
def anyRateTracker (n : Nat) : RateTracker :=
  { lastReset := Config.anyLastReset n, count := Config.anyCount n, fps := max 0 (Config.anyFps n) }

/-- `RT` after `RECORD_FRAME now` with a monotonic `now` (44_rate_tracker.md R191, R192). -/
def countFrame (p : Config.Params) (now : Nat) (rt : RateTracker) : RateTracker :=
  let count := rt.count + 1
  let elapsed := now - rt.lastReset
  if protocol.rateWindow * p.ticksPerSecond ≤ elapsed then
    { lastReset := now, count := 0,
      fps := roundFps p.fpsFormat ((count * p.ticksPerSecond : Nat) / (elapsed : Rat)) }
  else { rt with count := count }

/-- `RECORD_FRAME now` where the unit is present (R191, R195). -/
def recordFrame (now : Nat) (s : State) : State :=
  if now < s.rt.lastReset then { s with rt := anyRateTracker s.rtDraws, rtDraws := s.rtDraws + 1 }
  else { s with rt := countFrame s.params now s.rt }

/-- `if HAS_RATE_TRACKER: RECORD_FRAME(now)` of R145, sampling the port `now`. -/
def recordAcceptance (s : State) : State :=
  if s.params.hasRateTracker then recordFrame s.now s else s

/-! ## One iteration of the synchronizer -/

/-- The effect of ACCEPT on the candidate `f` at `start`, in the order of R145 (D20). -/
def acceptCandidate (start : Nat) (f : List Byte) (s : State) : Except FaultStatus State := do
  let s1 := setPhase .accepted s
  let v ← decodeFrame f
  let s2 := recordAcceptance (emitAccept f v (publish v s1))
  let s3 ← discardBytes (start + protocol.packetSize) s2
  pure (setPhase .searching s3)

/-- The effect of REJECT for a match at `start` (R146). -/
def rejectCandidate (start : Nat) (s : State) : Except FaultStatus State := do
  let s1 ← discardBytes (start + 1) (setPhase .rejected s)
  pure (setPhase .searching s1)

/-- The effect of SLIDE (R144). -/
def slideByOne (s : State) : Except FaultStatus State := do
  let s1 ← discardBytes 1 s
  pure (setPhase .searching s1)

/-- The effect of a decision (R143 to R146). -/
def applyDecision (d : Decision) (s : State) : Except FaultStatus State :=
  match d with
  | .wait => .ok s
  | .slide => slideByOne s
  | .accept start f => acceptCandidate start f s
  | .reject start => rejectCandidate start s

/-- The state after one `SYNC` iteration that takes the decision `d`, one atomic transition (D6, R57 (c); DEDUCED,
notes/assumptions 18). -/
def afterDecision (d : Decision) (s : State) : State :=
  commit s (applyDecision d s)

/-- One iteration that takes the decision `d` and hands its outcome to the worker; a fault hands over nothing. -/
def performDecision (d : Decision) (s : State) : State :=
  commit s ((applyDecision d s).map (answer (.outcome d.outcome)))

/-- `SYNC` performed as the row of one outcome: it exists only where that outcome is the one taken (R141; DESIGN CHOICE,
notes/assumptions 10). -/
def syncAs (o : SyncOutcome) (s : State) : Host.Outcome State Fault Refusal :=
  whenRunning s <|
    let d := syncDecision s.acc
    if d.outcome = o then .next (afterDecision d s) else .refused .outcomeNotTaken

/-- At most `n` iterations of `repeat { o <- SYNC } until o = WAIT`, ended too by a fault (42_synchronizer.md R148). -/
def drainSteps : Nat → State → State
  | 0, s => s
  | n + 1, s =>
    if s.fault = .none then
      match syncDecision s.acc with
      | .wait => s
      | d => drainSteps n (afterDecision d s)
    else s

/-- `DRAIN` (R148): as many iterations as there are bytes suffice, since each one but WAIT removes at least one. One step,
so the port `now` stands still in it (DESIGN CHOICE, notes/assumptions 13). -/
def drainState (s : State) : State :=
  drainSteps s.acc.length s

/-- `for each byte b of s in order: PUSH b; DRAIN` (30_encoding.md R92). -/
def pushAndDrainEach : List Byte → State → Host.Outcome State Fault Refusal
  | [], s => .next s
  | b :: bs, s =>
    match appendBytes [b] s with
    | .next s' => pushAndDrainEach bs (drainState s')
    | .fault r => .fault r
    | .refused r => .refused r

end Sys2Proof.Machine
end

