-- ==== Sys2Proof/Machine/Accumulator.lean ====
section
/-! DEFINITION. The meanings of the byte accumulator's operations (41_accumulator.md) and of `FEED` and `FEED1`
(30_encoding.md R92). -/

namespace Sys2Proof.Machine

/-- `APPEND s` (R131). -/
def execAppend (bs : List Byte) (s : State) : Host.Outcome State Fault Refusal :=
  appendBytes bs s

/-- `PUSH b` (R132). -/
def execPush (b : Byte) (s : State) : Host.Outcome State Fault Refusal :=
  appendBytes [b] s

/-- `DISCARD n` (R133), invoked directly (DESIGN CHOICE, notes/assumptions 12); it writes `ACC`, or `FAULT` when
`n > ACC.len`. -/
def execDiscard (n : Nat) (s : State) : Host.Outcome State Fault Refusal :=
  whenRunning s (.next (commit s (discardBytes n s)))

/-- `FEED s` = `APPEND s; DRAIN` (R92). -/
def execFeed (bs : List Byte) (s : State) : Host.Outcome State Fault Refusal :=
  match appendBytes bs s with
  | .next s' => .next (drainState s')
  | .fault r => .fault r
  | .refused r => .refused r

/-- `FEED1 s` (R92), the byte-serial discipline of 70_reset_and_hazards.md R236 (one step: DESIGN CHOICE, notes/assumptions 13). -/
def execFeed1 (bs : List Byte) (s : State) : Host.Outcome State Fault Refusal :=
  pushAndDrainEach bs s

end Sys2Proof.Machine
end

