-- ==== Sys2Proof/Machine/ChannelDecoder.lean ====
section
/-! DEFINITION. The meanings of the channel unpacker's operation and of the channel read (43_channel_decoder.md). -/

namespace Sys2Proof.Machine

/-- `DECODE F` (R171), invoked directly. On an operand of 26 bytes it is pure arithmetic and hands over the channels; on
any other it raises `F_DECODE_LENGTH` (R175), which a stopped block cannot do (60_exceptions.md R205; DEDUCED, notes/assumptions 27). -/
def execDecode (f : List Byte) (s : State) : Host.Outcome State Fault Refusal :=
  match decodeFrame f with
  | .ok v => .next (answer (.channels v) s)
  | .error e => whenRunning s (.next (raiseFault e s))

/-- `SNAP` (R179): allowed in every state. -/
def execSnap (s : State) : Host.Outcome State Fault Refusal :=
  .next (answer (.channels s.ch) s)

end Sys2Proof.Machine
end

