-- ==== Sys2Proof/Machine/CrcChecker.lean ====
section
/-! DEFINITION. The meanings of the CRC checker's operations (40_crc8.md). They are reads without side effects
(20_memory.md R56) and only hand a value to the worker. -/

namespace Sys2Proof.Machine

/-- `CRC8.UPDATE c b` (R112). -/
def execCrc8Update (c b : Byte) (s : State) : Host.Outcome State Fault Refusal :=
  .next (answer (.crc (crc8Update c b)) s)

/-- `CRC8 m` (R113). -/
def execCrc8 (m : List Byte) (s : State) : Host.Outcome State Fault Refusal :=
  .next (answer (.crc (crc8 m)) s)

/-- `CRCCHK F` (R114). -/
def execCrcchk (f : Vector Byte protocol.packetSize) (s : State) : Host.Outcome State Fault Refusal :=
  .next (answer (.crcOk (crcOk f.toList)) s)

end Sys2Proof.Machine
end

