-- ==== Sys2Proof/Machine/Lifecycle.lean ====
section
/-! DEFINITION. The meanings of `RESET` (70_reset_and_hazards.md R230) and of the frame row `FRAME.RC16`
(30_encoding.md R80, R83) and of the test bench's `PACK` (R94). -/

namespace Sys2Proof.Machine

/-- `RESET` (R230): enabled in every state, a faulted one included (R207). -/
def execReset (s : State) : Host.Outcome State Fault Refusal :=
  .next (resetState s)

/-- `FRAME.RC16`: these 26 bytes at the head of the accumulator are the candidate at offset 0, accepted or rejected as
R141, R145 and R146 say (DESIGN CHOICE, notes/assumptions 11). -/
def execFrameRc16 (ch : ChannelSet) (crc : Byte) (s : State) : Host.Outcome State Fault Refusal :=
  whenRunning s <|
    if memRead s.acc 0 protocol.packetSize = frameBytes ch crc then .next (performDecision (judgeCandidate s.acc 0) s)
    else .refused .frameNotAtHead

/-- `PACK v` (R94): no part of the block, it changes nothing in it (DESIGN CHOICE, notes/assumptions 23). -/
def execPack (v : ChannelSet) (s : State) : Host.Outcome State Fault Refusal :=
  .next (answer (.frame (packFrame v)) s)

end Sys2Proof.Machine
end

