-- ==== Sys2Proof/Machine/RateUnit.lean ====
section
/-! DEFINITION. The meanings of the rate tracker's operations (44_rate_tracker.md). Where the unit is absent they do not
exist (R190, R193; DEDUCED, notes/assumptions 14). -/

namespace Sys2Proof.Machine

/-- `RECORD_FRAME now` (R191), invoked directly. -/
def execRecordFrame (now : Nat) (s : State) : Host.Outcome State Fault Refusal :=
  if s.params.hasRateTracker then whenRunning s (.next (recordFrame now s)) else .refused .noRateTracker

/-- `READ_FPS` (R193): allowed in every state. It answers the current `RT.fps`, never an older one, though 20_memory.md R57 (e)
lets it lag the latest acceptance (DESIGN CHOICE, unsafe, notes/assumptions 28). -/
def execReadFps (s : State) : Host.Outcome State Fault Refusal :=
  if s.params.hasRateTracker then .next (answer (.fps s.rt.fps) s) else .refused .noRateTracker

end Sys2Proof.Machine
end

