-- ==== Sys2Proof/Machine/Synchronizer.lean ====
section
/-! DEFINITION. The meanings of the frame synchronizer's operations (42_synchronizer.md). -/

namespace Sys2Proof.Machine

/-- `FIND` (R142), a read without side effects. -/
def execFind (s : State) : Host.Outcome State Fault Refusal :=
  .next (answer (.start (findHeader s.acc)) s)

/-- `SYNC` (R141). -/
def execSync (s : State) : Host.Outcome State Fault Refusal :=
  whenRunning s (.next (performDecision (syncDecision s.acc) s))

/-- `SYNC.WAIT` (R143). -/
def execSyncWait (s : State) : Host.Outcome State Fault Refusal :=
  syncAs .wait s

/-- `SYNC.SLIDE` (R144). -/
def execSyncSlide (s : State) : Host.Outcome State Fault Refusal :=
  syncAs .slide s

/-- `SYNC.ACCEPT` (R145). -/
def execSyncAccept (s : State) : Host.Outcome State Fault Refusal :=
  syncAs .accept s

/-- `SYNC.REJECT` (R146). -/
def execSyncReject (s : State) : Host.Outcome State Fault Refusal :=
  syncAs .reject s

/-- `DRAIN` (R148). -/
def execDrain (s : State) : Host.Outcome State Fault Refusal :=
  whenRunning s (.next (drainState s))

/-- `PUBLISH v` (R147). -/
def execPublish (v : ChannelSet) (s : State) : Host.Outcome State Fault Refusal :=
  whenRunning s (.next (publish v s))

end Sys2Proof.Machine
end

