-- ==== Sys2Proof/Machine/Dispatch.lean ====
section
/-! DEFINITION. One arm per constructor of `Instr`: which meaning belongs to which row of the opcode table. -/

namespace Sys2Proof.Machine

def exec (i : Instr) (s : State) : Host.Outcome State Fault Refusal :=
  match i with
  | .frameRc16 ch crc => Sys2Proof.Machine.execFrameRc16 ch crc s
  | .reset => Sys2Proof.Machine.execReset s
  | .append bs => Sys2Proof.Machine.execAppend bs s
  | .push b => Sys2Proof.Machine.execPush b s
  | .discard n => Sys2Proof.Machine.execDiscard n s
  | .find => Sys2Proof.Machine.execFind s
  | .crc8Update c b => Sys2Proof.Machine.execCrc8Update c b s
  | .crc8 m => Sys2Proof.Machine.execCrc8 m s
  | .crcchk f => Sys2Proof.Machine.execCrcchk f s
  | .sync => Sys2Proof.Machine.execSync s
  | .syncWait => Sys2Proof.Machine.execSyncWait s
  | .syncSlide => Sys2Proof.Machine.execSyncSlide s
  | .syncAccept => Sys2Proof.Machine.execSyncAccept s
  | .syncReject => Sys2Proof.Machine.execSyncReject s
  | .drain => Sys2Proof.Machine.execDrain s
  | .decode f => Sys2Proof.Machine.execDecode f s
  | .publish v => Sys2Proof.Machine.execPublish v s
  | .snap => Sys2Proof.Machine.execSnap s
  | .recordFrame now => Sys2Proof.Machine.execRecordFrame now s
  | .readFps => Sys2Proof.Machine.execReadFps s
  | .feed bs => Sys2Proof.Machine.execFeed bs s
  | .feed1 bs => Sys2Proof.Machine.execFeed1 bs s
  | .pack v => Sys2Proof.Machine.execPack v s

end Sys2Proof.Machine
end

