-- ==== Sys2Proof/Machine/Schedule.lean ====
section
/-! DEFINITION. Where a step takes its instruction from: the next event of the schedule (10_state.md R33), or, when the
agents have none, the worker, which runs the frame the decoder reads at the head of the accumulator or else `SYNC`
(42_synchronizer.md R149). DESIGN CHOICE, notes/assumptions 4 and 20. -/

namespace Sys2Proof.Machine

/-- The instruction the next step performs. -/
def nextOp (s : State) : Instr :=
  match s.schedule with
  | e :: _ => e.op
  | [] => (fetch s.acc).getD .sync

/-- The state that instruction is performed in: its event is taken off the schedule and the port `now` shows the event's
time; with nothing scheduled nothing changes. -/
def takeEvent (s : State) : State :=
  match s.schedule with
  | e :: rest => { s with schedule := rest, now := e.now }
  | [] => s

/-- A state with the 26 bytes of a frame row's word at the head of the accumulator, in front of what lies behind its first
26 bytes, and with nothing scheduled. -/
def placeFrame (nbits w : Nat) (s : State) : State :=
  { s with acc := tableBytes nbits w ++ s.acc.drop protocol.packetSize, schedule := [] }

end Sys2Proof.Machine
end

