-- ==== Sys2Proof/Machine/Step.lean ====
section
/-! DEFINITION. One step of the block: one atomic transition by one agent (20_memory.md R61). -/

namespace Sys2Proof.Machine

/-- One step. -/
def step (s : State) : Host.Outcome State Fault Refusal :=
  exec (nextOp s) (takeEvent s)

/-- `s` with the instruction of an opcode-table word placed where the very next step takes it from. -/
def State.withFetchWord (s : State) (nbits w : Nat) : State :=
  placeFrame nbits w s

end Sys2Proof.Machine
end

