-- ==== Sys2Proof/Machine/Ports.lean ====
section
/-! DEFINITION. What the block shows outside (30_encoding.md R93, 20_memory.md R58): the output ports as functions of the
state. The input ports are the operands of `RESET`, `PUSH` and the state's `now`. -/

namespace Sys2Proof.Machine

/-- Port `ch_out[i]`; sampling all sixteen together is `SNAP`. -/
def chOut (s : State) (i : Fin protocol.numChannels) : Chan :=
  s.ch[i]

/-- Port `fault`, the level: `FAULT != none`. -/
def faultLevel (s : State) : Bool :=
  s.fault != .none

/-- Port `fault`, the 2-bit id (R200). -/
def faultId (s : State) : BitVec 2 :=
  faultCode s.fault

/-- Port `fps_out`, where the rate tracker is present (R193); it shows the current value without lag (DESIGN CHOICE, unsafe,
notes/assumptions 28). -/
def fpsOut (s : State) : Option Rat :=
  if s.params.hasRateTracker then some s.rt.fps else none

/-- `ACCEPTS` (R32). -/
def accepts (s : State) : Nat :=
  s.hist.length

/-- Port `accept_evt`: the events a transition from `s` to `t` raises, each with the channels `CH` then holds (R204). -/
def acceptEvents (s t : State) : List Accept :=
  t.hist.drop s.hist.length

end Sys2Proof.Machine
end

