-- ==== Sys2Proof/WellFormed.lean ====
section
/-! DEFINITION. When an instruction is well formed: the two conditions on operands that the types do not carry, the CRC
condition of the frame row (30_encoding.md R83, the row's `constraint`) and the operand length of `DECODE` (R171).
`exec` gives a meaning to the ill-formed terms too: R146 to the frame, R175 to the operand. -/

namespace Sys2Proof

/-- The check of each constructor's operands. -/
def Instr.wellFormed : Instr → Bool
  | .frameRc16 ch crc => crc == Machine.frameCrc ch
  | .decode f => f.length == Machine.protocol.packetSize
  | .reset => true
  | .append _ => true
  | .push _ => true
  | .discard _ => true
  | .find => true
  | .crc8Update _ _ => true
  | .crc8 _ => true
  | .crcchk _ => true
  | .sync => true
  | .syncWait => true
  | .syncSlide => true
  | .syncAccept => true
  | .syncReject => true
  | .drain => true
  | .publish _ => true
  | .snap => true
  | .recordFrame _ => true
  | .readFps => true
  | .feed _ => true
  | .feed1 _ => true
  | .pack _ => true

end Sys2Proof
end

