-- ==== Sys2Proof/Safety.lean ====
section
/-! DEFINITION. What counts as a good state and a good run, in the words the statements use: the states the spec allows
right after reset, quiescent and settled states, the discipline of who issues which operation, the invariant of a
disciplined run, and the words about byte sequences and about runs. These words and the statements write the literals of R5
out, so that they check the record `Sys2Proof.Machine.protocol` instead of following it. -/

namespace Sys2Proof

open Machine

/-! ## States -/

/-- The states 10_state.md R34 allows after `RESET`: `CH` is any sixteen values (D5) and the parameters are any. -/
structure AtReset (s : State) : Prop where
  acc : s.acc = []
  phase : s.phase = .searching
  fault : s.fault = .none
  hist : s.hist = []
  rt : s.params.hasRateTracker = true → s.rt = { lastReset := s.now, count := 0, fps := 0 }

/-- Quiescent (00_scope.md R11): fewer than 26 bytes are held, so that `SYNC` waits. -/
abbrev Quiescent (s : State) : Prop :=
  s.acc.length < 26

/-- The bytes an operation appends (41_accumulator.md R134). -/
def Instr.bytesIn : Instr → List Byte
  | .append bs => bs
  | .push b => [b]
  | .feed bs => bs
  | .feed1 bs => bs
  | _ => []

/-- Settled (42_synchronizer.md R149, D13): no fault, the upstream source has no more bytes to deliver, quiescent. Operations
that deliver no bytes, such as `SNAP`, may still be scheduled. -/
abbrev Settled (s : State) : Prop :=
  s.fault = .none ∧ (∀ e ∈ s.schedule, e.op.bytesIn = []) ∧ Quiescent s

/-- The operations an agent may perform by itself: all but the four that write state or raise a fault and that the spec
lets the worker perform inside `SYNC` only (30_encoding.md R91, 60_exceptions.md R202). -/
def Instr.disciplined : Instr → Bool
  | .discard _ => false
  | .decode _ => false
  | .publish _ => false
  | .recordFrame _ => false
  | .frameRc16 _ _ => true
  | .reset => true
  | .append _ => true
  | .push _ => true
  | .find => true
  | .crc8Update _ _ => true
  | .crc8 _ => true
  | .crcchk _ => true
  | .sync => true
  | .syncWait => true
  | .syncSlide => true
  | .syncAccept => true
  | .syncReject => true
  | .drain => true
  | .snap => true
  | .readFps => true
  | .feed _ => true
  | .feed1 _ => true
  | .pack _ => true

/-- An entry of the event history speaks of a valid frame and of its channels (10_state.md R32, 30_encoding.md R83). -/
structure ValidAccept (a : Accept) : Prop where
  length : a.frame.length = 26
  header : a.frame.take 3 = [0xC8#8, 0x18#8, 0x16#8]
  crc : crcOk a.frame = true
  channels : a.channels = unpackChannels a.frame

/-- The invariant of a disciplined run (10_state.md R35, 20_memory.md R62, 60_exceptions.md R202). -/
structure Sound (s : State) : Prop where
  /-- R35 (e), R202: no fault. -/
  fault : s.fault = .none
  /-- R35 (b): `PHASE` is `SEARCHING` between operations. -/
  phase : s.phase = .searching
  /-- R32: every acceptance is of a valid frame. -/
  hist : ∀ a ∈ s.hist, ValidAccept a
  /-- R62 (a): `CH` holds the channels of the latest acceptance, if there is one. -/
  published : ∀ a, s.hist.getLast? = some a → s.ch = a.channels
  /-- R24, D4: a finite `ACC_CAP` is never exceeded. -/
  capacity : ∀ c, s.params.accCap = some c → s.acc.length ≤ c
  /-- R30: `RT.fps` is never negative. -/
  fps : 0 ≤ s.rt.fps
  /-- What is still to be performed keeps the discipline. -/
  schedule : ∀ e ∈ s.schedule, e.op.disciplined = true

/-! ## Byte sequences -/

/-- Offset `k` is a header occurrence (30_encoding.md R81), byte by byte. -/
abbrev HeaderOccurs (bs : List Byte) (k : Nat) : Prop :=
  bs[k]? = some 0xC8#8 ∧ bs[k + 1]? = some 0x18#8 ∧ bs[k + 2]? = some 0x16#8

/-- Offset `k` is the first header occurrence (42_synchronizer.md R142). -/
abbrev FirstHeader (bs : List Byte) (k : Nat) : Prop :=
  HeaderOccurs bs k ∧ ∀ j < k, ¬ HeaderOccurs bs j

/-- The 26 bytes from offset `k`. -/
abbrev window (bs : List Byte) (k : Nat) : List Byte :=
  (bs.drop k).take 26

/-- A valid frame (30_encoding.md R83). -/
abbrev ValidFrame (f : List Byte) : Prop :=
  f.length = 26 ∧ HeaderOccurs f 0 ∧ crcOk f = true

/-- Bit `j` of byte `k` flipped. -/
def flipBit (bs : List Byte) (k j : Nat) : List Byte :=
  bs.modify k (· ^^^ BitVec.twoPow 8 j)

/-- Two messages exclusive-ored byte by byte (40_crc8.md R116 (a)). -/
abbrev xorBytes (a b : List Byte) : List Byte :=
  List.zipWith (· ^^^ ·) a b

/-! ## Runs -/

/-- The operations one after another, stopping at the first that does not answer a next state. -/
def execAll : List Instr → State → Host.Outcome State Fault Refusal
  | [], s => .next s
  | i :: is, s =>
    match exec i s with
    | .next s' => execAll is s'
    | .fault r => .fault r
    | .refused r => .refused r

/-- The same for events, each operation performed while the port `now` shows its event's time (10_state.md R33). -/
def execAt : List Event → State → Host.Outcome State Fault Refusal
  | [], s => .next s
  | e :: es, s =>
    match exec e.op { s with now := e.now } with
    | .next s' => execAt es s'
    | .fault r => .fault r
    | .refused r => .refused r

/-- An outcome with `f` applied to its next state. -/
def mapNext (f : State → State) : Host.Outcome State Fault Refusal → Host.Outcome State Fault Refusal
  | .next s => .next (f s)
  | .fault r => .fault r
  | .refused r => .refused r

/-- An `APPEND` or a `SYNC`: what the upstream source and the worker interleave (20_memory.md R63). -/
def Instr.appendOrSync : Instr → Bool
  | .append _ => true
  | .sync => true
  | _ => false

/-- The bytes a list of operations appends, in order. -/
def appendedBytes : List Instr → List Byte
  | [] => []
  | .append bs :: is => bs ++ appendedBytes is
  | _ :: is => appendedBytes is

/-- The row of an outcome of `SYNC` (42_synchronizer.md R141). -/
def outcomeInstr : SyncOutcome → Instr
  | .wait => .syncWait
  | .slide => .syncSlide
  | .accept => .syncAccept
  | .reject => .syncReject

/-- The block with the rate tracker taken out (44_rate_tracker.md R190): the parameter false, its registers, its free values
and the port `now` at 0. -/
def withoutRateTracker (s : State) : State :=
  { s with
    params := { s.params with hasRateTracker := false }, rt := { lastReset := 0, count := 0, fps := 0 },
    rtDraws := 0, now := 0 }

end Sys2Proof
end

