-- ==== Sys2Proof/Certificates/Slice0/Obligations.lean ====
section
/-! DEFINITION. The statements for the provers, in the order of the spec's files. Each says what the block does, in the words
of the numbered rules; the docstring names the rule, and says so where a clause is the model's own choice. -/

open Sys2Proof Sys2Proof.Machine

/-! ## Reset (70_reset_and_hazards.md, 10_state.md) -/

/-- R230: `RESET` in any state. `CH` takes some value `v`, which the spec leaves unspecified. -/
def Obligations.ResetInitialisesEveryRegister : Prop :=
  ∀ s : State, ∃ (v : ChannelSet) (n : Nat), exec .reset s = .next
    { s with
      acc := [], phase := .searching, fault := .none, hist := [], ch := v, chDraws := n,
      rt := if s.params.hasRateTracker then { lastReset := s.now, count := 0, fps := 0 } else s.rt }

/-- R34, for the model's reset state and for every other choice of the open parameters, of `CH_RESET` and of the time. -/
def Obligations.ResetStateHoldsTheSpecValues : Prop :=
  AtReset State.reset ∧ ∀ (p : Config.Params) (ch : ChannelSet) (now : Nat), AtReset (State.resetWith p ch now)

/-- R35: the invariant holds right after reset, whatever the parameters, `CH_RESET` and the time. -/
def Obligations.SoundHoldsAtReset : Prop :=
  Sound State.reset ∧ ∀ (p : Config.Params) (ch : ChannelSet) (now : Nat), Sound (State.resetWith p ch now)

/-! ## Encodings (30_encoding.md) -/

/-- R80, R82: every bit of an encoded frame comes back. -/
def Obligations.DecodeOfEncodeIsTheInstruction : Prop :=
  ∀ (i : Instr) (bs rest : List Byte), encode i = some bs → decode (bs ++ rest) = .ok (i, rest)

/-- R80: no bit of the frame is unused, so the bytes come back from the instruction. -/
def Obligations.EncodeOfDecodeIsTheBytes : Prop :=
  ∀ (bs rest : List Byte) (i : Instr), decode bs = .ok (i, rest) → ∃ w, encode i = some w ∧ bs = w ++ rest

/-- R81, R87, R90: a frame is read exactly where 26 bytes begin with the header; anything else is refused by name. -/
def Obligations.DecodeRecognisesTheHeaderOnly : Prop :=
  ∀ bs : List Byte,
    (bs.length < 26 → decode bs = .error .tooShort) ∧
    (26 ≤ bs.length → ¬ HeaderOccurs bs 0 → decode bs = .error .noHeader) ∧
    (26 ≤ bs.length → HeaderOccurs bs 0 → ∃ ch crc, decode bs = .ok (.frameRc16 ch crc, bs.drop 26) ∧ bs[25]? = some crc)

/-- R82, on three frames of 95_test_vectors.md written out byte by byte (Z, M and V). -/
def Obligations.NamedFramesDecode : Prop :=
  decode [0xC8, 0x18, 0x16, 0x00, 0x00, 0x00, 0x00, 0x00, 0x00, 0x00, 0x00, 0x00, 0x00, 0x00, 0x00, 0x00, 0x00, 0x00, 0x00,
      0x00, 0x00, 0x00, 0x00, 0x00, 0x00, 0xEF] = .ok (.frameRc16 (Vector.replicate 16 0) 0xEF, []) ∧
  decode [0xC8, 0x18, 0x16, 0xFF, 0xFF, 0xFF, 0xFF, 0xFF, 0xFF, 0xFF, 0xFF, 0xFF, 0xFF, 0xFF, 0xFF, 0xFF, 0xFF, 0xFF, 0xFF,
      0xFF, 0xFF, 0xFF, 0xFF, 0xFF, 0xFF, 0x8F] = .ok (.frameRc16 (Vector.replicate 16 2047) 0x8F, []) ∧
  decode [0xC8, 0x18, 0x16, 0xAC, 0x00, 0xDF, 0xC4, 0x01, 0xF0, 0xFF, 0x00, 0x00, 0xB0, 0xAA, 0xAA, 0x22, 0x03, 0x32, 0x58,
      0x02, 0x19, 0xFA, 0x60, 0x89, 0x57, 0xE6, 0xBB] =
    .ok (.frameRc16 #v[172, 992, 1811, 0, 2047, 1, 1024, 1365, 682, 100, 200, 300, 400, 500, 600, 700] 0xE6, [0xBB])

/-- R83, R145, R146 for the frame row: a frame at the head of the accumulator is the candidate `SYNC` judges; with the CRC byte
R83 asks for it is accepted, with any other it is rejected. That the row is performed as an instruction is the model's
choice (notes/assumptions 11). -/
def Obligations.FrameAtTheHeadIsJudged : Prop :=
  ∀ (s : State) (ch : ChannelSet) (crc : Byte) (rest : List Byte),
    s.fault = .none → s.acc = frameBytes ch crc ++ rest →
    exec (.frameRc16 ch crc) s = exec .sync s ∧
    (crc = frameCrc ch → ∃ u, (if s.params.hasRateTracker then exec (.recordFrame s.now) s = .next u else u = s) ∧
      exec (.frameRc16 ch crc) s = .next
        { s with
          acc := rest, ch := ch, phase := .searching, hist := s.hist ++ [{ frame := frameBytes ch crc, channels := ch }],
          rt := u.rt, rtDraws := u.rtDraws, result := .outcome .accept }) ∧
    (crc ≠ frameCrc ch → exec (.frameRc16 ch crc) s = .next
      { s with acc := s.acc.drop 1, phase := .searching, result := .outcome .reject })

/-- R92: the pseudo-operations are their expansions. -/
def Obligations.FeedIsItsExpansion : Prop :=
  ∀ (s : State) (bs : List Byte),
    exec (.feed bs) s = execAll [.append bs, .drain] s ∧
    exec (.feed1 bs) s = execAll (bs.flatMap fun b => [.push b, .drain]) s

/-- R94: what `PACK` builds. -/
def Obligations.PackBuildsAValidFrame : Prop :=
  ∀ (s : State) (v : ChannelSet), ∃ f, exec (.pack v) s = .next { s with result := .frame f } ∧ ValidFrame f ∧
    ∀ k < 22, f[3 + k]? = some (BitVec.ofNat 8 ((∑ i : Fin 16, v[i].toNat <<< (11 * i.val)) >>> (8 * k)))

/-- R94, R86: `DECODE(FRAME(v)) = v`. -/
def Obligations.DecodeInvertsPack : Prop :=
  ∀ (s : State) (v : ChannelSet), ∃ f, exec (.pack v) s = .next { s with result := .frame f } ∧
    exec (.decode f) s = .next { s with result := .channels v }

/-! ## The CRC checker (40_crc8.md) -/

/-- R111: the ROM holds the printed entries, they are what the construction gives, and each value occurs once. -/
def Obligations.RomIsThePrintedTable : Prop :=
  crcTable = romListing ∧ (∀ i : Byte, romListing[i.toNat]? = some (tableEntry i)) ∧ romListing.length = 256 ∧
    romListing.Nodup

/-- R112, with the entry looked up in the listing of R111. -/
def Obligations.CrcUpdateReadsTheRom : Prop :=
  ∀ (s : State) (c b : Byte), ∃ t, romListing[(c ^^^ b).toNat]? = some t ∧
    exec (.crc8Update c b) s = .next { s with result := .crc t }

/-- R113: the CRC of a message, from `CRC_INIT` byte by byte in ascending order. -/
def Obligations.CrcRunsOverTheMessage : Prop :=
  ∀ s : State, exec (.crc8 []) s = .next { s with result := .crc 0x00 } ∧
    ∀ m : List Byte, ∃ c, exec (.crc8 m) s = .next { s with result := .crc c } ∧
      ∀ b : Byte, exec (.crc8 (m ++ [b])) s = .next { s with result := .crc (tableEntry (c ^^^ b)) }

/-- R113, its corner cases: a message followed by its CRC, and leading zero bytes. -/
def Obligations.CrcOfMessageAndCrcIsZero : Prop :=
  ∀ m : List Byte, crc8 (m ++ [crc8 m]) = 0x00 ∧ ∀ k, crc8 (List.replicate k 0x00 ++ m) = crc8 m

/-- R116 (a). -/
def Obligations.CrcIsLinear : Prop :=
  ∀ a b : List Byte, a.length = b.length → crc8 (xorBytes a b) = crc8 a ^^^ crc8 b

/-- R117: eight bit-serial steps, most significant bit first, equal one update. -/
def Obligations.BitSerialCheckerAgrees : Prop :=
  ∀ c b : Byte, crcBitSerial c b = crc8Update c b

/-- R114: the covered span is offsets 2..24, compared with the byte at 25. The second clause, that equivalently the CRC over
2..25 is 0, is no rule of the spec but its derivation: R114 marks it "[derived: from rule R113]". -/
def Obligations.CrcchkComparesTheCoveredSpan : Prop :=
  ∀ (s : State) (f : Vector Byte 26), ∃ ok : Bool, exec (.crcchk f) s = .next { s with result := .crcOk ok } ∧
    (ok = true ↔ crc8 (List.ofFn fun k : Fin 23 => f[2 + k.val]) = f[25]) ∧
    (ok = true ↔ crc8 (List.ofFn fun k : Fin 24 => f[2 + k.val]) = 0x00)

/-- R116 (c) with conflict C6: a valid frame with any one bit flipped, delivered to an empty accumulator, is not accepted. -/
def Obligations.SingleBitErrorIsNotAccepted : Prop :=
  ∀ (s : State) (f : List Byte) (k j : Nat),
    s.fault = .none → s.acc = [] → s.params.Legal → ValidFrame f → k < 26 → j < 8 →
    ∃ t, exec (.feed (flipBit f k j)) s = .next t ∧ t.hist = s.hist ∧ t.ch = s.ch ∧
      t.acc = (flipBit f k j).drop 1

/-! ## The byte accumulator (41_accumulator.md) -/

/-- R131: the three ways an `APPEND` goes. -/
def Obligations.AppendAddsBytesAtTheTail : Prop :=
  ∀ (s : State) (bs : List Byte),
    (s.fault = .none → (∀ c, s.params.accCap = some c → s.acc.length + bs.length ≤ c) →
      exec (.append bs) s = .next { s with acc := s.acc ++ bs }) ∧
    (s.fault = .none → (∃ c, s.params.accCap = some c ∧ c < s.acc.length + bs.length) →
      exec (.append bs) s = .refused .capacityExceeded) ∧
    (s.fault ≠ .none → exec (.append bs) s = .fault .stoppedByFault)

/-- R132: `PUSH(b) = APPEND([b])`, and the bytes of a chunk pushed one by one reach the state of its `APPEND`. -/
def Obligations.PushesReachTheAppendState : Prop :=
  ∀ (s : State) (b : Byte) (bs : List Byte),
    exec (.push b) s = exec (.append [b]) s ∧
    execAll ((b :: bs).map .push) s = exec (.append (b :: bs)) s ∧
    (s.fault = .none → (∀ c, s.params.accCap = some c → s.acc.length + 1 ≤ c) →
      exec (.push b) s = .next { s with acc := s.acc ++ [b] })

/-- R133: the first `n` bytes go, or the fault is recorded and nothing else changes. -/
def Obligations.DiscardRemovesTheHeadOrFaults : Prop :=
  ∀ (s : State) (n : Nat), s.fault = .none →
    (n ≤ s.acc.length → exec (.discard n) s = .next { s with acc := s.acc.drop n }) ∧
    (s.acc.length < n → exec (.discard n) s = .next { s with fault := .discardOverrun n s.acc.length })

/-- R134: no operation but `RESET` inserts, reorders or overwrites bytes: what is held afterwards is what was held, followed by
what was appended, with some bytes gone from the head. -/
def Obligations.AccumulatorGrowsAtTheTailOnly : Prop :=
  ∀ (i : Instr) (s t : State), i ≠ .reset → exec i s = .next t → ∃ n, t.acc = (s.acc ++ i.bytesIn).drop n

/-! ## The synchronizer (42_synchronizer.md) -/

/-- R142, with a header occurrence as R81 says it. -/
def Obligations.FindReturnsTheFirstHeader : Prop :=
  ∀ s : State, ∃ r, exec .find s = .next { s with result := .start r } ∧
    (∀ k, r = some k ↔ FirstHeader s.acc k) ∧ (r = none ↔ ∀ k, ¬ HeaderOccurs s.acc k)

/-- R143: fewer than 26 bytes, no state changes. -/
def Obligations.SyncWaitsForTwentySixBytes : Prop :=
  ∀ s : State, s.fault = .none → s.acc.length < 26 →
    exec .sync s = .next { s with result := .outcome .wait } ∧ exec .syncWait s = .next s

/-- R144: exactly one byte goes from the head. -/
def Obligations.SyncSlidesByOneByte : Prop :=
  ∀ s : State, s.fault = .none → 26 ≤ s.acc.length → (∀ k, FirstHeader s.acc k → s.acc.length - k < 26) →
    exec .sync s = .next { s with acc := s.acc.drop 1, phase := .searching, result := .outcome .slide } ∧
    exec .syncSlide s = .next { s with acc := s.acc.drop 1, phase := .searching }

/-- R145: the channels are published, the acceptance recorded, and the garbage and the frame discarded; `u` is what
`RECORD_FRAME` at the time of the port `now` makes of the rate tracker, where it is present. -/
def Obligations.SyncAcceptsAValidCandidate : Prop :=
  ∀ (s : State) (k : Nat), s.fault = .none → FirstHeader s.acc k → k + 26 ≤ s.acc.length →
    crcOk (window s.acc k) = true →
    ∃ (v : ChannelSet) (u : State),
      exec (.decode (window s.acc k)) s = .next { s with result := .channels v } ∧
      (if s.params.hasRateTracker then exec (.recordFrame s.now) s = .next u else u = s) ∧
      exec .sync s = .next
        { s with
          acc := s.acc.drop (k + 26), ch := v, phase := .searching,
          hist := s.hist ++ [{ frame := window s.acc k, channels := v }],
          rt := u.rt, rtDraws := u.rtDraws, result := .outcome .accept } ∧
      exec .syncAccept s = .next
        { s with
          acc := s.acc.drop (k + 26), ch := v, phase := .searching,
          hist := s.hist ++ [{ frame := window s.acc k, channels := v }],
          rt := u.rt, rtDraws := u.rtDraws }

/-- R146: the garbage and the first byte of the false match go, nothing else. -/
def Obligations.SyncRejectsAFalseMatch : Prop :=
  ∀ (s : State) (k : Nat), s.fault = .none → FirstHeader s.acc k → k + 26 ≤ s.acc.length →
    crcOk (window s.acc k) = false →
    exec .sync s = .next { s with acc := s.acc.drop (k + 1), phase := .searching, result := .outcome .reject } ∧
    exec .syncReject s = .next { s with acc := s.acc.drop (k + 1), phase := .searching }

/-- R141: in every state without a fault exactly one outcome is taken, and `SYNC` has its effect. That the rows of the other
outcomes are refused is the model's choice (notes/assumptions 10). -/
def Obligations.OutcomesExcludeOneAnother : Prop :=
  ∀ s : State, s.fault = .none → ∃ (o : SyncOutcome) (t : State),
    exec (outcomeInstr o) s = .next t ∧ exec .sync s = .next { t with result := .outcome o } ∧
    ∀ o', o' ≠ o → exec (outcomeInstr o') s = .refused .outcomeNotTaken

/-- R147: all sixteen registers at once. That nothing else changes, `HIST` included, is the model's reading: R147 names no other
effect, the opcode table's row mentions the accept event (DEDUCED, unsafe, notes/assumptions 22). -/
def Obligations.PublishReplacesAllChannels : Prop :=
  ∀ (s : State) (v : ChannelSet), s.fault = .none → exec (.publish v) s = .next { s with ch := v }

/-- R148: `DRAIN` is `SYNC` repeated, at most `ACC.len - 25` times, until fewer than 26 bytes are left. -/
def Obligations.DrainIsBoundedRepetitionOfSync : Prop :=
  ∀ s : State, s.fault = .none → ∃ (n : Nat) (u : State),
    n ≤ s.acc.length - 25 ∧ execAll (List.replicate n .sync) s = .next u ∧ u.acc.length ≤ 25 ∧
    exec .drain s = .next { u with result := s.result }

/-- R148: draining again with no new bytes changes nothing. -/
def Obligations.DrainIsIdempotent : Prop :=
  ∀ s t : State, exec .drain s = .next t → exec .drain t = .next t

/-- R149, with D12: with nothing scheduled a step of the model is a `SYNC` iteration, also where the decoder reads a frame at
the head. That an idle step is the worker's is the model's choice (notes/assumptions 4). -/
def Obligations.IdleStepIsSync : Prop :=
  ∀ s : State, s.schedule = [] → step s = exec .sync s

/-- R153 (a), with the precondition of conflict C11: noise, one valid frame and the beginning of the next are delivered to an
empty accumulator; exactly that frame is accepted and the bytes after it are left. -/
def Obligations.NoiseThenFrameIsAcceptedOnce : Prop :=
  ∀ (s : State) (noise frame tail : List Byte),
    s.fault = .none → s.acc = [] → s.params.accCap = none → ValidFrame frame → tail.length < 26 →
    (∀ k < noise.length, HeaderOccurs (noise ++ frame) k → crcOk (window (noise ++ frame) k) = false) →
    ∃ t, exec (.feed (noise ++ frame ++ tail)) s = .next t ∧ t.acc = tail ∧
      t.hist = s.hist ++ [{ frame := frame, channels := unpackChannels frame }] ∧ t.ch = unpackChannels frame

/-- R153 (b): a rejected match takes no later header occurrence with it. -/
def Obligations.RejectKeepsLaterHeaders : Prop :=
  ∀ (s t : State) (k j : Nat), exec .syncReject s = .next t → FirstHeader s.acc k → k < j → HeaderOccurs s.acc j →
    HeaderOccurs t.acc (j - (k + 1))

/-! ## The channel unpacker (43_channel_decoder.md) -/

/-- R172: the sixteen lanes written out, `b k` being `F[k]`. -/
def Obligations.DecodeComputesTheSixteenLanes : Prop :=
  ∀ (s : State) (f : List Byte), f.length = 26 →
    let b : Nat → Nat := fun k => (f.getD k 0).toNat
    let lane : Nat → Chan := fun x => BitVec.ofNat 11 (x &&& 0x7FF)
    exec (.decode f) s = .next { s with result := .channels #v[
      lane (b 3 ||| b 4 <<< 8),
      lane (b 4 >>> 3 ||| b 5 <<< 5),
      lane (b 5 >>> 6 ||| b 6 <<< 2 ||| b 7 <<< 10),
      lane (b 7 >>> 1 ||| b 8 <<< 7),
      lane (b 8 >>> 4 ||| b 9 <<< 4),
      lane (b 9 >>> 7 ||| b 10 <<< 1 ||| b 11 <<< 9),
      lane (b 11 >>> 2 ||| b 12 <<< 6),
      lane (b 12 >>> 5 ||| b 13 <<< 3),
      lane (b 14 ||| b 15 <<< 8),
      lane (b 15 >>> 3 ||| b 16 <<< 5),
      lane (b 16 >>> 6 ||| b 17 <<< 2 ||| b 18 <<< 10),
      lane (b 18 >>> 1 ||| b 19 <<< 7),
      lane (b 19 >>> 4 ||| b 20 <<< 4),
      lane (b 20 >>> 7 ||| b 21 <<< 1 ||| b 22 <<< 9),
      lane (b 22 >>> 2 ||| b 23 <<< 6),
      lane (b 23 >>> 5 ||| b 24 <<< 3)] }

/-- R52: bit `j` of channel `i` is stream bit `11*i + j`, least significant first across byte boundaries. -/
def Obligations.DecodeTakesTheStreamBits : Prop :=
  ∀ (s : State) (f : List Byte), f.length = 26 → ∃ v : ChannelSet,
    exec (.decode f) s = .next { s with result := .channels v } ∧
    ∀ (i j : Nat) (hi : i < 16), j < 11 →
      v[i].getLsbD j = (f.getD (3 + (11 * i + j) / 8) 0).getLsbD ((11 * i + j) % 8)

/-- R175: the length fault; no value is returned and no channel changes. -/
def Obligations.DecodeOfAnotherLengthFaults : Prop :=
  ∀ (s : State) (f : List Byte), s.fault = .none → f.length ≠ 26 →
    exec (.decode f) s = .next { s with fault := .decodeLength f.length }

/-- R179: allowed in every state, a faulted one included. -/
def Obligations.SnapReturnsTheChannels : Prop :=
  ∀ s : State, exec .snap s = .next { s with result := .channels s.ch }

/-! ## The rate tracker (44_rate_tracker.md) -/

/-- R191, R192: the count, and the roll-over of the window at one second or more, with the exact quotient where the number
format is the reference model's. -/
def Obligations.RecordFrameCountsAndRollsOver : Prop :=
  ∀ (s : State) (now : Nat), s.fault = .none → s.params.hasRateTracker = true → 0 < s.params.ticksPerSecond →
    s.rt.lastReset ≤ now →
    (now - s.rt.lastReset < s.params.ticksPerSecond →
      exec (.recordFrame now) s = .next { s with rt := { s.rt with count := s.rt.count + 1 } }) ∧
    (s.params.ticksPerSecond ≤ now - s.rt.lastReset → ∃ q : Rat, 0 ≤ q ∧
      (s.params.fpsFormat = .exact →
        q = ((s.rt.count : Rat) + 1) / (((now : Rat) - (s.rt.lastReset : Rat)) / (s.params.ticksPerSecond : Rat))) ∧
      exec (.recordFrame now) s = .next { s with rt := { lastReset := now, count := 0, fps := q } })

/-- R195: a time that goes backwards leaves `RT` unconstrained and the rest of the block as it was. -/
def Obligations.BackwardTimeTouchesTheRateTrackerOnly : Prop :=
  ∀ (s : State) (now : Nat), s.fault = .none → s.params.hasRateTracker = true → now < s.rt.lastReset →
    ∃ (rt : RateTracker) (n : Nat), exec (.recordFrame now) s = .next { s with rt := rt, rtDraws := n }

/-- R193, in every state; and, without the unit, neither of its operations exists. That the value is the current one, where
20_memory.md R57 (e) lets it lag the latest acceptance, is the model's choice (DESIGN CHOICE, unsafe, notes/assumptions 28). -/
def Obligations.ReadFpsReturnsTheEstimate : Prop :=
  ∀ s : State,
    (s.params.hasRateTracker = true → exec .readFps s = .next { s with result := .fps s.rt.fps }) ∧
    (s.params.hasRateTracker = false → exec .readFps s = .refused .noRateTracker ∧
      ∀ now, exec (.recordFrame now) s = .refused .noRateTracker)

/-- R190: taking the unit out changes nothing else, for every operation but the unit's own two. -/
def Obligations.RateTrackerCanBeTakenOut : Prop :=
  ∀ (i : Instr) (s : State), i ≠ .readFps → (∀ now, i ≠ .recordFrame now) →
    mapNext withoutRateTracker (exec i s) = exec i (withoutRateTracker s)

/-- R30, R191 (c), conflict C8: while no frame is accepted the rate tracker keeps its values. -/
def Obligations.RateTrackerChangesOnAcceptanceOnly : Prop :=
  ∀ (i : Instr) (s t : State), i ≠ .reset → (∀ now, i ≠ .recordFrame now) → exec i s = .next t → t.hist = s.hist →
    t.rt = s.rt

/-! ## Faults (60_exceptions.md) -/

/-- R203: in a faulted state the mutating operations are not enabled; the two reads and `RESET` are. -/
def Obligations.FaultDisablesTheMutatingOperations : Prop :=
  ∀ s : State, s.fault ≠ .none →
    (∀ bs, exec (.append bs) s = .fault .stoppedByFault) ∧ (∀ b, exec (.push b) s = .fault .stoppedByFault) ∧
    (∀ n, exec (.discard n) s = .fault .stoppedByFault) ∧ (∀ v, exec (.publish v) s = .fault .stoppedByFault) ∧
    exec .sync s = .fault .stoppedByFault ∧ (∀ o, exec (outcomeInstr o) s = .fault .stoppedByFault) ∧
    exec .drain s = .fault .stoppedByFault ∧ (∀ bs, exec (.feed bs) s = .fault .stoppedByFault) ∧
    (∀ b bs, exec (.feed1 (b :: bs)) s = .fault .stoppedByFault) ∧
    (∀ ch crc, exec (.frameRc16 ch crc) s = .fault .stoppedByFault) ∧
    (s.params.hasRateTracker = true → ∀ now, exec (.recordFrame now) s = .fault .stoppedByFault) ∧
    (∃ t, exec .snap s = .next t) ∧ (s.params.hasRateTracker = true → ∃ t, exec .readFps s = .next t) ∧
    (∃ t, exec .reset s = .next t ∧ t.fault = .none)

/-- R203, R207, R230: nothing but `RESET` changes a faulted block (the value handed to an agent is no part of it). -/
def Obligations.OnlyResetLeavesAFault : Prop :=
  ∀ (i : Instr) (s t : State), s.fault ≠ .none → i ≠ .reset → exec i s = .next t → t = { s with result := t.result }

/-- R202: no operation but a direct invocation of the worker's internal ones can raise a fault, from any state without one. -/
def Obligations.DisciplinedOperationsRaiseNoFault : Prop :=
  ∀ (i : Instr) (s t : State), i.disciplined = true → s.fault = .none → exec i s = .next t → t.fault = .none

/-! ## Whole-machine rules (10_state.md, 20_memory.md) -/

/-- R35, R32, R62 (a), R202: every step keeps the invariant. -/
def Obligations.EveryStepKeepsSound : Prop :=
  ∀ s t : State, Sound s → step s = .next t → Sound t

/-- R201, R202: a step of a sound state is never stopped by a fault. -/
def Obligations.SoundStatesAreNeverStopped : Prop :=
  ∀ (s : State) (r : Fault), Sound s → step s ≠ .fault r

/-- R62 (a): a `SNAP` in a sound state hands over the channels of the latest accepted frame. -/
def Obligations.SnapShowsTheLatestAcceptedFrame : Prop :=
  ∀ (s : State) (a : Accept), Sound s → s.hist.getLast? = some a →
    exec .snap s = .next { s with result := .channels (unpackChannels a.frame) }

/-- R22: apart from `RESET` and a direct `PUBLISH`, `CH` changes only where a frame is accepted, and then holds the channels of
the latest acceptance; the history only grows (R32). -/
def Obligations.ChannelsChangeOnAcceptanceOnly : Prop :=
  ∀ (i : Instr) (s t : State), i ≠ .reset → (∀ v, i ≠ .publish v) → exec i s = .next t →
    s.hist <+: t.hist ∧ (t.hist = s.hist → t.ch = s.ch) ∧
    (t.hist ≠ s.hist → ∃ a, t.hist.getLast? = some a ∧ t.ch = a.channels)

/-- The three fields are the model's own: the parameters (DESIGN CHOICE, notes/assumptions 3), the schedule (DESIGN CHOICE,
notes/assumptions 4) and the port `now` (DESIGN CHOICE, notes/assumptions 5). That no operation writes them is the model's form
of R6 (they are parameters) and of R33 (they are inputs of a step); that `RESET` too keeps them is DEDUCED, notes/assumptions
26. -/
def Obligations.OperationsWriteNoInput : Prop :=
  ∀ (i : Instr) (s t : State), exec i s = .next t →
    t.params = s.params ∧ t.now = s.now ∧ t.schedule = s.schedule

/-- R63: for a fixed byte sequence, every way of cutting it into chunks and every interleaving of the `APPEND`s with `SYNC`
iterations that never exceeds `ACC_CAP` reaches, after a closing `DRAIN`, the same `HIST` and `ACC`. The equality of the whole
state (but for the value handed over last) says more than R63: of `RT` it holds only because every operation here is
performed at one time of the port `now` (DESIGN CHOICE, notes/assumptions 5; of the `DRAIN`, DESIGN CHOICE, unsafe,
notes/assumptions 13). `ScheduleDoesNotMatterAtAnyTimes` is about runs at differing times. -/
def Obligations.ScheduleDoesNotMatter : Prop :=
  ∀ (s t t' : State) (ops ops' : List Instr), s.fault = .none →
    (∀ i ∈ ops, i.appendOrSync = true) → (∀ i ∈ ops', i.appendOrSync = true) → appendedBytes ops = appendedBytes ops' →
    execAll (ops ++ [.drain]) s = .next t → execAll (ops' ++ [.drain]) s = .next t' → t' = { t with result := t'.result }

/-- R63, R236: byte by byte with a `DRAIN` after each reaches the results of the whole chunk. The equality of the whole state
says more than these rules: of `RT` it holds because `FEED` and `FEED1` are one step each, at one time of the port `now`
(DESIGN CHOICE, unsafe, notes/assumptions 13). -/
def Obligations.ByteSerialFeedIsChunkedFeed : Prop :=
  ∀ (s : State) (bs : List Byte), s.fault = .none → s.params.accCap = none → Quiescent s →
    exec (.feed1 bs) s = exec (.feed bs) s

/-- R236: under the byte-serial discipline 26 bytes of storage suffice. -/
def Obligations.ByteSerialFeedFitsTwentySixBytes : Prop :=
  ∀ (s : State) (bs : List Byte), s.fault = .none → s.params.Legal → Quiescent s →
    ∃ t, exec (.feed1 bs) s = .next t ∧ t.acc.length ≤ 25 ∧ t.fault = .none

/-- R92, R148: a chunk the capacity admits is fed, and fewer than 26 bytes stay behind. -/
def Obligations.FeedCompletes : Prop :=
  ∀ (s : State) (bs : List Byte), s.fault = .none → (∀ c, s.params.accCap = some c → s.acc.length + bs.length ≤ c) →
    ∃ t, exec (.feed bs) s = .next t ∧ exec .drain { s with acc := s.acc ++ bs } = .next t ∧ t.acc.length ≤ 25 ∧
      t.fault = .none

/-! ## The step (20_memory.md R61; the schedule is the model's, notes/assumptions 4) -/

/-- A step performs the next scheduled operation at its time. -/
def Obligations.StepRunsTheScheduledOperation : Prop :=
  ∀ (s : State) (e : Event) (rest : List Event), s.schedule = e :: rest →
    step s = exec e.op { s with schedule := rest, now := e.now }

/-- With nothing scheduled, a step performs the frame the decoder reads at the head of the accumulator. -/
def Obligations.StepRunsTheDecodedFrame : Prop :=
  ∀ (s : State) (i : Instr) (rest : List Byte), s.schedule = [] → decode s.acc = .ok (i, rest) → step s = exec i s

/-- R149, R143: in a settled state of a disciplined run nothing but `RESET` changes `ACC`, `CH`, `RT` or `HIST` any more, and
what follows is settled too: the claims made there stay true. -/
def Obligations.SettledStatesStaySettled : Prop :=
  ∀ s t : State, Sound s → Settled s → step s = .next t →
    Settled t ∧ (nextOp s ≠ .reset → t.acc = s.acc ∧ t.ch = s.ch ∧ t.rt = s.rt ∧ t.hist = s.hist)

/-- R63 where each operation has a time of its own: two such runs of `APPEND`s and `SYNC`s that append the same bytes, each
closed by a `DRAIN` at any time, accept the same frames and leave the same bytes and channels. Of `RT`, which depends on the
times, nothing is said. -/
def Obligations.ScheduleDoesNotMatterAtAnyTimes : Prop :=
  ∀ (s t t' : State) (es es' : List Event) (now now' : Nat), s.fault = .none →
    (∀ e ∈ es, e.op.appendOrSync = true) → (∀ e ∈ es', e.op.appendOrSync = true) →
    appendedBytes (es.map Event.op) = appendedBytes (es'.map Event.op) →
    execAt (es ++ [{ now := now, op := .drain }]) s = .next t →
    execAt (es' ++ [{ now := now', op := .drain }]) s = .next t' →
    t'.hist = t.hist ∧ t'.acc = t.acc ∧ t'.ch = t.ch ∧ t'.phase = t.phase ∧ t'.fault = t.fault
end

