-- ==== Sys2Proof/Laws/Protocol.lean ====
section
/-! SUPPORT. The values of the configuration record (00_scope.md R5), one lemma per parameter, and the ROM looked up: what the
other laws cite instead of unfolding the record or the table. -/

namespace Sys2Proof.Machine

@[simp] theorem protocol_packetSize : protocol.packetSize = 26 := rfl
@[simp] theorem protocol_header : protocol.header = [0xC8#8, 0x18#8, 0x16#8] := rfl
@[simp] theorem protocol_headerLen : protocol.headerLen = 3 := rfl
@[simp] theorem protocol_poly : protocol.poly = 0xD5#8 := rfl
@[simp] theorem protocol_crcTableSize : protocol.crcTableSize = 256 := rfl
@[simp] theorem protocol_crcFirst : protocol.crcFirst = 2 := rfl
@[simp] theorem protocol_crcLast : protocol.crcLast = 24 := rfl
@[simp] theorem protocol_crcPos : protocol.crcPos = 25 := rfl
@[simp] theorem protocol_numChannels : protocol.numChannels = 16 := rfl
@[simp] theorem protocol_chBits : protocol.chBits = 11 := rfl
@[simp] theorem protocol_chMask : protocol.chMask = 0x7FF := rfl
@[simp] theorem protocol_chBase : protocol.chBase = 3 := rfl
@[simp] theorem protocol_rateWindow : protocol.rateWindow = 1 := rfl
@[simp] theorem protocol_crcInit : protocol.crcInit = 0x00#8 := rfl
@[simp] theorem protocol_crcXorOut : protocol.crcXorOut = 0x00#8 := rfl
@[simp] theorem regionLen_eq : regionLen = 22 := rfl

@[simp] theorem length_crcTable : crcTable.length = 256 := by simp [crcTable]

/-- `TABLE[i] = TABLE_ENTRY(i)` (R111). -/
theorem getElem?_crcTable (i : Byte) : crcTable[i.toNat]? = some (tableEntry i) := by
  simp [crcTable, i.isLt]

/-- The update in terms of the construction (R112). -/
theorem crc8Update_eq (crc b : Byte) : crc8Update crc b = tableEntry (crc ^^^ b) := by
  rw [crc8Update, List.getD_eq_getElem?_getD, getElem?_crcTable, Option.getD_some]

end Sys2Proof.Machine
end

