-- ==== Sys2Proof/Laws/State.lean ====
section
/-! SUPPORT. The small lemmas of the named updates of `Sys2Proof/Machine/Ops.lean`: one per field per update, true by
`rfl`, so that no later proof unfolds a record update. The rate tracker's update is a choice, so its lemmas say which
fields it leaves alone. -/

namespace Sys2Proof.Machine

variable (s : State)

/-! ## `raiseFault` -/

@[simp] theorem raiseFault_acc (f : FaultStatus) : (raiseFault f s).acc = s.acc := rfl

@[simp] theorem raiseFault_ch (f : FaultStatus) : (raiseFault f s).ch = s.ch := rfl

@[simp] theorem raiseFault_phase (f : FaultStatus) : (raiseFault f s).phase = s.phase := rfl

@[simp] theorem raiseFault_fault (f : FaultStatus) : (raiseFault f s).fault = f := rfl

@[simp] theorem raiseFault_rt (f : FaultStatus) : (raiseFault f s).rt = s.rt := rfl

@[simp] theorem raiseFault_hist (f : FaultStatus) : (raiseFault f s).hist = s.hist := rfl

@[simp] theorem raiseFault_params (f : FaultStatus) : (raiseFault f s).params = s.params := rfl

@[simp] theorem raiseFault_now (f : FaultStatus) : (raiseFault f s).now = s.now := rfl

@[simp] theorem raiseFault_schedule (f : FaultStatus) : (raiseFault f s).schedule = s.schedule := rfl

@[simp] theorem raiseFault_result (f : FaultStatus) : (raiseFault f s).result = s.result := rfl

@[simp] theorem raiseFault_chDraws (f : FaultStatus) : (raiseFault f s).chDraws = s.chDraws := rfl

@[simp] theorem raiseFault_rtDraws (f : FaultStatus) : (raiseFault f s).rtDraws = s.rtDraws := rfl

/-! ## `addTail` -/

@[simp] theorem addTail_acc (bs : List Byte) : (addTail bs s).acc = s.acc ++ bs := rfl

@[simp] theorem addTail_ch (bs : List Byte) : (addTail bs s).ch = s.ch := rfl

@[simp] theorem addTail_phase (bs : List Byte) : (addTail bs s).phase = s.phase := rfl

@[simp] theorem addTail_fault (bs : List Byte) : (addTail bs s).fault = s.fault := rfl

@[simp] theorem addTail_rt (bs : List Byte) : (addTail bs s).rt = s.rt := rfl

@[simp] theorem addTail_hist (bs : List Byte) : (addTail bs s).hist = s.hist := rfl

@[simp] theorem addTail_params (bs : List Byte) : (addTail bs s).params = s.params := rfl

@[simp] theorem addTail_now (bs : List Byte) : (addTail bs s).now = s.now := rfl

@[simp] theorem addTail_schedule (bs : List Byte) : (addTail bs s).schedule = s.schedule := rfl

@[simp] theorem addTail_result (bs : List Byte) : (addTail bs s).result = s.result := rfl

@[simp] theorem addTail_chDraws (bs : List Byte) : (addTail bs s).chDraws = s.chDraws := rfl

@[simp] theorem addTail_rtDraws (bs : List Byte) : (addTail bs s).rtDraws = s.rtDraws := rfl

/-! ## `dropHead` -/

@[simp] theorem dropHead_acc (n : Nat) : (dropHead n s).acc = s.acc.drop n := rfl

@[simp] theorem dropHead_ch (n : Nat) : (dropHead n s).ch = s.ch := rfl

@[simp] theorem dropHead_phase (n : Nat) : (dropHead n s).phase = s.phase := rfl

@[simp] theorem dropHead_fault (n : Nat) : (dropHead n s).fault = s.fault := rfl

@[simp] theorem dropHead_rt (n : Nat) : (dropHead n s).rt = s.rt := rfl

@[simp] theorem dropHead_hist (n : Nat) : (dropHead n s).hist = s.hist := rfl

@[simp] theorem dropHead_params (n : Nat) : (dropHead n s).params = s.params := rfl

@[simp] theorem dropHead_now (n : Nat) : (dropHead n s).now = s.now := rfl

@[simp] theorem dropHead_schedule (n : Nat) : (dropHead n s).schedule = s.schedule := rfl

@[simp] theorem dropHead_result (n : Nat) : (dropHead n s).result = s.result := rfl

@[simp] theorem dropHead_chDraws (n : Nat) : (dropHead n s).chDraws = s.chDraws := rfl

@[simp] theorem dropHead_rtDraws (n : Nat) : (dropHead n s).rtDraws = s.rtDraws := rfl

/-! ## `setPhase` -/

@[simp] theorem setPhase_acc (p : Phase) : (setPhase p s).acc = s.acc := rfl

@[simp] theorem setPhase_ch (p : Phase) : (setPhase p s).ch = s.ch := rfl

@[simp] theorem setPhase_phase (p : Phase) : (setPhase p s).phase = p := rfl

@[simp] theorem setPhase_fault (p : Phase) : (setPhase p s).fault = s.fault := rfl

@[simp] theorem setPhase_rt (p : Phase) : (setPhase p s).rt = s.rt := rfl

@[simp] theorem setPhase_hist (p : Phase) : (setPhase p s).hist = s.hist := rfl

@[simp] theorem setPhase_params (p : Phase) : (setPhase p s).params = s.params := rfl

@[simp] theorem setPhase_now (p : Phase) : (setPhase p s).now = s.now := rfl

@[simp] theorem setPhase_schedule (p : Phase) : (setPhase p s).schedule = s.schedule := rfl

@[simp] theorem setPhase_result (p : Phase) : (setPhase p s).result = s.result := rfl

@[simp] theorem setPhase_chDraws (p : Phase) : (setPhase p s).chDraws = s.chDraws := rfl

@[simp] theorem setPhase_rtDraws (p : Phase) : (setPhase p s).rtDraws = s.rtDraws := rfl

/-! ## `publish` -/

@[simp] theorem publish_acc (v : ChannelSet) : (publish v s).acc = s.acc := rfl

@[simp] theorem publish_ch (v : ChannelSet) : (publish v s).ch = v := rfl

@[simp] theorem publish_phase (v : ChannelSet) : (publish v s).phase = s.phase := rfl

@[simp] theorem publish_fault (v : ChannelSet) : (publish v s).fault = s.fault := rfl

@[simp] theorem publish_rt (v : ChannelSet) : (publish v s).rt = s.rt := rfl

@[simp] theorem publish_hist (v : ChannelSet) : (publish v s).hist = s.hist := rfl

@[simp] theorem publish_params (v : ChannelSet) : (publish v s).params = s.params := rfl

@[simp] theorem publish_now (v : ChannelSet) : (publish v s).now = s.now := rfl

@[simp] theorem publish_schedule (v : ChannelSet) : (publish v s).schedule = s.schedule := rfl

@[simp] theorem publish_result (v : ChannelSet) : (publish v s).result = s.result := rfl

@[simp] theorem publish_chDraws (v : ChannelSet) : (publish v s).chDraws = s.chDraws := rfl

@[simp] theorem publish_rtDraws (v : ChannelSet) : (publish v s).rtDraws = s.rtDraws := rfl

/-! ## `emitAccept` -/

@[simp] theorem emitAccept_acc (f : List Byte) (v : ChannelSet) : (emitAccept f v s).acc = s.acc := rfl

@[simp] theorem emitAccept_ch (f : List Byte) (v : ChannelSet) : (emitAccept f v s).ch = s.ch := rfl

@[simp] theorem emitAccept_phase (f : List Byte) (v : ChannelSet) : (emitAccept f v s).phase = s.phase := rfl

@[simp] theorem emitAccept_fault (f : List Byte) (v : ChannelSet) : (emitAccept f v s).fault = s.fault := rfl

@[simp] theorem emitAccept_rt (f : List Byte) (v : ChannelSet) : (emitAccept f v s).rt = s.rt := rfl

@[simp] theorem emitAccept_hist (f : List Byte) (v : ChannelSet) : (emitAccept f v s).hist = s.hist ++ [{ frame := f, channels := v }] := rfl

@[simp] theorem emitAccept_params (f : List Byte) (v : ChannelSet) : (emitAccept f v s).params = s.params := rfl

@[simp] theorem emitAccept_now (f : List Byte) (v : ChannelSet) : (emitAccept f v s).now = s.now := rfl

@[simp] theorem emitAccept_schedule (f : List Byte) (v : ChannelSet) : (emitAccept f v s).schedule = s.schedule := rfl

@[simp] theorem emitAccept_result (f : List Byte) (v : ChannelSet) : (emitAccept f v s).result = s.result := rfl

@[simp] theorem emitAccept_chDraws (f : List Byte) (v : ChannelSet) : (emitAccept f v s).chDraws = s.chDraws := rfl

@[simp] theorem emitAccept_rtDraws (f : List Byte) (v : ChannelSet) : (emitAccept f v s).rtDraws = s.rtDraws := rfl

/-! ## `answer` -/

@[simp] theorem answer_acc (r : Result) : (answer r s).acc = s.acc := rfl

@[simp] theorem answer_ch (r : Result) : (answer r s).ch = s.ch := rfl

@[simp] theorem answer_phase (r : Result) : (answer r s).phase = s.phase := rfl

@[simp] theorem answer_fault (r : Result) : (answer r s).fault = s.fault := rfl

@[simp] theorem answer_rt (r : Result) : (answer r s).rt = s.rt := rfl

@[simp] theorem answer_hist (r : Result) : (answer r s).hist = s.hist := rfl

@[simp] theorem answer_params (r : Result) : (answer r s).params = s.params := rfl

@[simp] theorem answer_now (r : Result) : (answer r s).now = s.now := rfl

@[simp] theorem answer_schedule (r : Result) : (answer r s).schedule = s.schedule := rfl

@[simp] theorem answer_result (r : Result) : (answer r s).result = r := rfl

@[simp] theorem answer_chDraws (r : Result) : (answer r s).chDraws = s.chDraws := rfl

@[simp] theorem answer_rtDraws (r : Result) : (answer r s).rtDraws = s.rtDraws := rfl

/-! ## `resetState` -/

@[simp] theorem resetState_acc : (resetState s).acc = [] := rfl

@[simp] theorem resetState_ch : (resetState s).ch = Config.chReset s.chDraws := rfl

@[simp] theorem resetState_phase : (resetState s).phase = .searching := rfl

@[simp] theorem resetState_fault : (resetState s).fault = .none := rfl

@[simp] theorem resetState_rt : (resetState s).rt =
    if s.params.hasRateTracker then { lastReset := s.now, count := 0, fps := 0 } else s.rt := rfl

@[simp] theorem resetState_hist : (resetState s).hist = [] := rfl

@[simp] theorem resetState_params : (resetState s).params = s.params := rfl

@[simp] theorem resetState_now : (resetState s).now = s.now := rfl

@[simp] theorem resetState_schedule : (resetState s).schedule = s.schedule := rfl

@[simp] theorem resetState_result : (resetState s).result = s.result := rfl

@[simp] theorem resetState_chDraws : (resetState s).chDraws = s.chDraws + 1 := rfl

@[simp] theorem resetState_rtDraws : (resetState s).rtDraws = s.rtDraws := rfl

/-! ## `recordFrame` and `recordAcceptance`: everything but `RT` and its free values stays -/

@[simp] theorem recordFrame_acc (now : Nat) : (recordFrame now s).acc = s.acc := by
  unfold recordFrame; split <;> rfl

@[simp] theorem recordFrame_ch (now : Nat) : (recordFrame now s).ch = s.ch := by
  unfold recordFrame; split <;> rfl

@[simp] theorem recordFrame_phase (now : Nat) : (recordFrame now s).phase = s.phase := by
  unfold recordFrame; split <;> rfl

@[simp] theorem recordFrame_fault (now : Nat) : (recordFrame now s).fault = s.fault := by
  unfold recordFrame; split <;> rfl

@[simp] theorem recordFrame_hist (now : Nat) : (recordFrame now s).hist = s.hist := by
  unfold recordFrame; split <;> rfl

@[simp] theorem recordFrame_params (now : Nat) : (recordFrame now s).params = s.params := by
  unfold recordFrame; split <;> rfl

@[simp] theorem recordFrame_now (now : Nat) : (recordFrame now s).now = s.now := by
  unfold recordFrame; split <;> rfl

@[simp] theorem recordFrame_schedule (now : Nat) : (recordFrame now s).schedule = s.schedule := by
  unfold recordFrame; split <;> rfl

@[simp] theorem recordFrame_result (now : Nat) : (recordFrame now s).result = s.result := by
  unfold recordFrame; split <;> rfl

@[simp] theorem recordFrame_chDraws (now : Nat) : (recordFrame now s).chDraws = s.chDraws := by
  unfold recordFrame; split <;> rfl

@[simp] theorem recordAcceptance_acc : (recordAcceptance s).acc = s.acc := by
  unfold recordAcceptance; split <;> simp

@[simp] theorem recordAcceptance_ch : (recordAcceptance s).ch = s.ch := by
  unfold recordAcceptance; split <;> simp

@[simp] theorem recordAcceptance_phase : (recordAcceptance s).phase = s.phase := by
  unfold recordAcceptance; split <;> simp

@[simp] theorem recordAcceptance_fault : (recordAcceptance s).fault = s.fault := by
  unfold recordAcceptance; split <;> simp

@[simp] theorem recordAcceptance_hist : (recordAcceptance s).hist = s.hist := by
  unfold recordAcceptance; split <;> simp

@[simp] theorem recordAcceptance_params : (recordAcceptance s).params = s.params := by
  unfold recordAcceptance; split <;> simp

@[simp] theorem recordAcceptance_now : (recordAcceptance s).now = s.now := by
  unfold recordAcceptance; split <;> simp

@[simp] theorem recordAcceptance_schedule : (recordAcceptance s).schedule = s.schedule := by
  unfold recordAcceptance; split <;> simp

@[simp] theorem recordAcceptance_result : (recordAcceptance s).result = s.result := by
  unfold recordAcceptance; split <;> simp

@[simp] theorem recordAcceptance_chDraws : (recordAcceptance s).chDraws = s.chDraws := by
  unfold recordAcceptance; split <;> simp

end Sys2Proof.Machine
end

