-- ==== Sys2Proof/Laws/Accumulator.lean ====
section
/-! SUPPORT. What the accumulator's shared operations can do, said once: the header search, `MemRead`, `APPEND` and
`DISCARD`. -/

namespace Sys2Proof.Machine

theorem length_memRead {acc : List Byte} {k n : Nat} (h : k + n ≤ acc.length) : (memRead acc k n).length = n := by
  simp [memRead]; omega

theorem memRead_append {acc bs : List Byte} {k n : Nat} (h : k + n ≤ acc.length) :
    memRead (acc ++ bs) k n = memRead acc k n := by
  have hk : k ≤ acc.length := by omega
  have hn : n ≤ (acc.drop k).length := by simp; omega
  simp only [memRead]
  rw [List.drop_append_of_le_length hk, List.take_append_of_le_length hn]

theorem memRead_cons_succ (b : Byte) (bs : List Byte) (k n : Nat) : memRead (b :: bs) (k + 1) n = memRead bs k n := rfl

theorem headerAt_iff (acc : List Byte) (k : Nat) : headerAt acc k = true ↔ HeaderOccurs acc k := by
  induction k generalizing acc with
  | zero =>
    match acc with
    | [] => simp [headerAt, memRead, HeaderOccurs]
    | [_] => simp [headerAt, memRead, HeaderOccurs]
    | [_, _] => simp [headerAt, memRead, HeaderOccurs]
    | _ :: _ :: _ :: _ => simp [headerAt, memRead, HeaderOccurs]
  | succ k ih =>
    cases acc with
    | nil => simp [headerAt, memRead]
    | cons b bs => simpa [headerAt, memRead, HeaderOccurs, Nat.add_right_comm] using ih bs

theorem headerOccurs_lt {bs : List Byte} {k : Nat} (h : HeaderOccurs bs k) : k + 2 < bs.length := by
  by_contra hk
  have := h.2.2
  rw [List.getElem?_eq_none (Nat.le_of_not_lt hk)] at this
  cases this

theorem headerOccurs_append {bs cs : List Byte} {k : Nat} (h : k + 2 < bs.length) :
    HeaderOccurs (bs ++ cs) k ↔ HeaderOccurs bs k := by
  simp [HeaderOccurs, List.getElem?_append_left h, List.getElem?_append_left (show k < bs.length by omega),
    List.getElem?_append_left (show k + 1 < bs.length by omega)]

theorem headerOccurs_cons_succ (b : Byte) (bs : List Byte) (k : Nat) :
    HeaderOccurs (b :: bs) (k + 1) ↔ HeaderOccurs bs k := by
  simp [HeaderOccurs, Nat.add_right_comm k 1]

/-- `FIND` answers exactly the first header occurrence (R142). -/
theorem findHeader_eq_some_iff (acc : List Byte) (k : Nat) : findHeader acc = some k ↔ FirstHeader acc k := by
  induction acc generalizing k with
  | nil => simp [findHeader, FirstHeader, HeaderOccurs]
  | cons b bs ih =>
    unfold findHeader
    split
    · rename_i h
      rw [headerAt_iff] at h
      constructor
      · rintro ⟨⟩; exact ⟨h, by omega⟩
      · rintro ⟨-, hmin⟩
        cases k with
        | zero => rfl
        | succ k => exact absurd h (hmin 0 (by omega))
    · rename_i h
      rw [headerAt_iff] at h
      cases k with
      | zero => simp [FirstHeader, h]
      | succ k =>
        have : (findHeader bs).map (· + 1) = some (k + 1) ↔ findHeader bs = some k := by simp
        rw [this, ih]
        constructor
        · rintro ⟨hk, hmin⟩
          refine ⟨(headerOccurs_cons_succ ..).2 hk, fun j hj => ?_⟩
          cases j with
          | zero => exact h
          | succ j => exact fun hj' => hmin j (by omega) ((headerOccurs_cons_succ ..).1 hj')
        · rintro ⟨hk, hmin⟩
          exact ⟨(headerOccurs_cons_succ ..).1 hk,
            fun j hj hj' => hmin (j + 1) (by omega) ((headerOccurs_cons_succ ..).2 hj')⟩

/-- `FIND` answers none exactly where there is no header occurrence (R142). -/
theorem findHeader_eq_none_iff (acc : List Byte) : findHeader acc = none ↔ ∀ k, ¬ HeaderOccurs acc k := by
  constructor
  · intro h k
    induction k using Nat.strong_induction_on with
    | _ k ih =>
      intro hk
      have := (findHeader_eq_some_iff acc k).2 ⟨hk, ih⟩
      simp [h] at this
  · intro h
    cases hf : findHeader acc with
    | none => rfl
    | some k => exact absurd ((findHeader_eq_some_iff acc k).1 hf).1 (h k)

theorem findHeader_cons_of_not_headerAt {b : Byte} {bs : List Byte} (h : headerAt (b :: bs) 0 = false) :
    findHeader (b :: bs) = (findHeader bs).map (· + 1) := by
  simp [findHeader, h]

/-- A first occurrence stays the first when bytes arrive at the tail (R63). -/
theorem findHeader_append_of_some {acc bs : List Byte} {k : Nat} (h : findHeader acc = some k) :
    findHeader (acc ++ bs) = some k := by
  rw [findHeader_eq_some_iff] at h ⊢
  refine ⟨(headerOccurs_append (headerOccurs_lt h.1)).2 h.1, fun j hj hj' => h.2 j hj ?_⟩
  exact (headerOccurs_append (by have := (headerOccurs_lt h.1); omega)).1 hj'

theorem capAdmits_iff (p : Config.Params) (n : Nat) : capAdmits p n = true ↔ ∀ c, p.accCap = some c → n ≤ c := by
  unfold capAdmits; cases p.accCap <;> simp

/-- What `APPEND` can do (R131). -/
theorem appendBytes_eq_next_iff {bs : List Byte} {s t : State} :
    appendBytes bs s = .next t ↔
      s.fault = .none ∧ capAdmits s.params (s.acc.length + bs.length) = true ∧ t = addTail bs s := by
  unfold appendBytes whenRunning
  split <;> rename_i hf
  · split <;> rename_i hc <;> simp [hf, hc, eq_comm]
  · simp [hf]

/-- What `DISCARD` can do (R133). -/
theorem discardBytes_of_le {n : Nat} {s : State} (h : n ≤ s.acc.length) : discardBytes n s = .ok (dropHead n s) := by
  simp [discardBytes, Nat.not_lt.2 h]

theorem discardBytes_of_lt {n : Nat} {s : State} (h : s.acc.length < n) :
    discardBytes n s = .error (.discardOverrun n s.acc.length) := by
  simp [discardBytes, h]

end Sys2Proof.Machine
end

