-- ==== Sys2Proof/Laws/Channel.lean ====
section
/-! SUPPORT. The bits of the channel region: which frame bit each lane and each packed byte takes (20_memory.md R52,
43_channel_decoder.md R174), and that unpacking and packing undo each other. -/

namespace Sys2Proof.Machine

theorem frameByte_lt (f : List Byte) (k : Nat) : frameByte f k < 2 ^ 8 := (f.getD k 0).isLt

theorem testBit_frameByte_of_le (f : List Byte) {k b : Nat} (h : 8 ≤ b) : (frameByte f k).testBit b = false :=
  Nat.testBit_lt_two_pow (lt_of_lt_of_le (frameByte_lt f k) (Nat.pow_le_pow_right (by omega) h))

/-- Bit `j` of the two or three terms of a lane that begins at bit `sh` of byte `q` of the region: three disjoint ranges
of bits, one for each term (R174). -/
theorem testBit_laneTerms (f : List Byte) (q sh j : Nat) (hs : sh < 8) (hj : j < 11) :
    (if sh > 5 then
        (frameByte f (3 + q) >>> sh ||| frameByte f (3 + q + 1) <<< (8 - sh)) ||| frameByte f (3 + q + 2) <<< (16 - sh)
      else frameByte f (3 + q) >>> sh ||| frameByte f (3 + q + 1) <<< (8 - sh)).testBit j =
      (frameByte f (3 + (8 * q + (sh + j)) / 8)).testBit ((8 * q + (sh + j)) % 8) := by
  have hb : ∀ q r : Nat, 8 ≤ r → (frameByte f q).testBit r = false := fun q r h => testBit_frameByte_of_le f h
  by_cases h1 : sh + j < 8
  · have e1 : (8 * q + (sh + j)) / 8 = q := by omega
    have e2 : (8 * q + (sh + j)) % 8 = sh + j := by omega
    rw [e1, e2]
    have e3 : ¬ 8 - sh ≤ j := by omega
    have e4 : ¬ 16 - sh ≤ j := by omega
    split <;> simp [Nat.testBit_or, Nat.testBit_shiftRight, Nat.testBit_shiftLeft, e3, e4]
  · have e0 := hb (3 + q) (sh + j) (by omega)
    by_cases h2 : sh + j < 16
    · have e1 : (8 * q + (sh + j)) / 8 = q + 1 := by omega
      have e2 : (8 * q + (sh + j)) % 8 = sh + j - 8 := by omega
      have e3 : j - (8 - sh) = sh + j - 8 := by omega
      have e4 : 8 - sh ≤ j := by omega
      have e5 : ¬ 16 - sh ≤ j := by omega
      rw [e1, e2]
      split <;> simp [Nat.testBit_or, Nat.testBit_shiftRight, Nat.testBit_shiftLeft, e0, e3, e4, e5, Nat.add_assoc]
    · have e1 : (8 * q + (sh + j)) / 8 = q + 2 := by omega
      have e2 : (8 * q + (sh + j)) % 8 = sh + j - 16 := by omega
      have e3 : j - (16 - sh) = sh + j - 16 := by omega
      have e4 : 16 - sh ≤ j := by omega
      have e5 : sh > 5 := by omega
      have e6 := hb (3 + (q + 1)) (j - (8 - sh)) (by omega)
      rw [e1, e2, if_pos e5]
      simp only [Nat.testBit_or, Nat.testBit_shiftRight, Nat.testBit_shiftLeft, e0, e3, e4, e6, Nat.add_assoc]
      simp

/-- Bit `j` of lane `i` is stream bit `11*i + j` (R174). -/
theorem testBit_laneValue (f : List Byte) (i j : Nat) (hj : j < 11) :
    (laneValue f i).testBit j = (frameByte f (3 + (11 * i + j) / 8)).testBit ((11 * i + j) % 8) := by
  have hmask : protocol.chMask.testBit j = true := by
    have : protocol.chMask = 2 ^ 11 - 1 := rfl
    rw [this, Nat.testBit_two_pow_sub_one]; simpa using hj
  have hp : 11 * i + j = 8 * (i * 11 / 8) + (i * 11 % 8 + j) := by omega
  rw [hp, ← testBit_laneTerms f _ _ j (Nat.mod_lt _ (by omega)) hj, laneValue, Nat.testBit_and, hmask, Bool.and_true]
  rfl

theorem getLsbD_unpackChannels (f : List Byte) (i : Nat) (hi : i < 16) (j : Nat) (hj : j < 11) :
    ((unpackChannels f)[i]).getLsbD j = (f.getD (3 + (11 * i + j) / 8) 0).getLsbD ((11 * i + j) % 8) := by
  simp only [unpackChannels, Vector.getElem_ofFn, BitVec.getLsbD_ofNat, hj, decide_true, Bool.true_and]
  rw [testBit_laneValue f i j hj]; rfl

/-- Bit `p` of the packed number is bit `p % 11` of channel `p / 11` (R94). -/
theorem testBit_packBits (cs : List Chan) (p : Nat) :
    (packBits cs).testBit p = (cs.getD (p / 11) 0).getLsbD (p % 11) := by
  induction cs generalizing p with
  | nil => simp [packBits]
  | cons c cs ih =>
    have hc : c.toNat < 2 ^ 11 := c.isLt
    have hor : packBits (c :: cs) = packBits cs <<< 11 ||| c.toNat := by
      rw [packBits, Nat.add_comm]
      exact Nat.shiftLeft_add_eq_or_of_lt hc _
    rw [hor, Nat.testBit_or, Nat.testBit_shiftLeft]
    by_cases h : p < 11
    · have e1 : p / 11 = 0 := by omega
      have e2 : p % 11 = p := by omega
      rw [e1, e2]
      have : ¬ p ≥ 11 := by omega
      simp [this]; rfl
    · obtain ⟨q, rfl⟩ : ∃ q, p = q + 11 := ⟨p - 11, by omega⟩
      have e1 : (q + 11) / 11 = q / 11 + 1 := by omega
      have e2 : (q + 11) % 11 = q % 11 := by omega
      have e3 : c.toNat.testBit (q + 11) = false :=
        Nat.testBit_lt_two_pow (lt_of_lt_of_le hc (Nat.pow_le_pow_right (by omega) (by omega)))
      rw [e1, e2, e3, ih]; simp

theorem length_regionBytes (v : ChannelSet) : (regionBytes v).length = 22 := by simp [regionBytes]

theorem length_frameBytes (v : ChannelSet) (crc : Byte) : (frameBytes v crc).length = 26 := by
  simp [frameBytes, length_regionBytes]

theorem take_three_frameBytes (v : ChannelSet) (crc : Byte) : (frameBytes v crc).take 3 = protocol.header := by
  simp [frameBytes]

theorem getElem?_frameBytes_crc (v : ChannelSet) (crc : Byte) : (frameBytes v crc)[25]? = some crc := by
  simp [frameBytes, length_regionBytes]

theorem getElem?_frameBytes_region (v : ChannelSet) (crc : Byte) {k : Nat} (hk : k < 22) :
    (frameBytes v crc)[3 + k]? = some (BitVec.ofNat 8 (packBits v.toList >>> (8 * k))) := by
  have h3 : 3 + k = k + 3 := by omega
  have hl : k < (regionBytes v).length := by rw [length_regionBytes]; exact hk
  simp only [frameBytes, h3, List.cons_append, List.nil_append, List.getElem?_cons_succ,
    List.getElem?_append_left hl]
  simp [regionBytes, hk]

/-- The channels a frame was built from come back (R94, R86). -/
theorem unpackChannels_frameBytes_append (v : ChannelSet) (crc : Byte) (rest : List Byte) :
    unpackChannels (frameBytes v crc ++ rest) = v := by
  apply Vector.ext
  intro i hi
  apply BitVec.eq_of_getLsbD_eq
  intro j hj
  rw [protocol_numChannels] at hi
  rw [protocol_chBits] at hj
  have hk : (11 * i + j) / 8 < 22 := by omega
  rw [getLsbD_unpackChannels _ i hi j hj]
  have hlt : 3 + (11 * i + j) / 8 < (frameBytes v crc).length := by rw [length_frameBytes]; omega
  rw [List.getD_eq_getElem?_getD, List.getElem?_append_left hlt, getElem?_frameBytes_region v crc hk]
  have hm : (11 * i + j) % 8 < 8 := Nat.mod_lt _ (by omega)
  simp only [Option.getD_some, BitVec.getLsbD_ofNat, hm, decide_true, Bool.true_and, Nat.testBit_shiftRight]
  rw [testBit_packBits]
  have e1 : (8 * ((11 * i + j) / 8) + (11 * i + j) % 8) = 11 * i + j := by omega
  have e2 : (11 * i + j) / 11 = i := by omega
  have e3 : (11 * i + j) % 11 = j := by omega
  rw [e1, e2, e3]
  simp [List.getD_eq_getElem?_getD, hi]

/-- A frame's 26 bytes are those built from the channels it holds and its CRC byte: no bit of the frame is unused (R80). -/
theorem frameBytes_unpackChannels {bs : List Byte} (hl : 26 ≤ bs.length) (hh : bs.take 3 = protocol.header) :
    frameBytes (unpackChannels bs) (bs.getD 25 0) = bs.take 26 := by
  apply List.ext_getElem?
  intro n
  by_cases h3 : n < 3
  · have e : (frameBytes (unpackChannels bs) (bs.getD 25 0))[n]? = protocol.header[n]? := by
      rw [← take_three_frameBytes (unpackChannels bs) (bs.getD 25 0), List.getElem?_take_of_lt h3]
    rw [e, ← hh, List.getElem?_take_of_lt h3, List.getElem?_take_of_lt (by omega)]
  · by_cases h25 : n < 25
    · obtain ⟨k, rfl⟩ : ∃ k, n = 3 + k := ⟨n - 3, by omega⟩
      rw [getElem?_frameBytes_region _ _ (by omega), List.getElem?_take_of_lt (by omega),
        List.getElem?_eq_getElem (by omega)]
      congr 1
      apply BitVec.eq_of_getLsbD_eq
      intro b hb
      simp only [BitVec.getLsbD_ofNat, hb, decide_true, Bool.true_and, Nat.testBit_shiftRight, testBit_packBits]
      have hi : (8 * k + b) / 11 < 16 := by omega
      have hj : (8 * k + b) % 11 < 11 := Nat.mod_lt _ (by omega)
      have hget : (unpackChannels bs).toList.getD ((8 * k + b) / 11) 0 = (unpackChannels bs)[(8 * k + b) / 11] := by
        simp [List.getD_eq_getElem?_getD, hi]
      rw [hget, getLsbD_unpackChannels bs _ hi _ hj]
      have e0 : 11 * ((8 * k + b) / 11) + (8 * k + b) % 11 = 8 * k + b := Nat.div_add_mod ..
      have e1 : (8 * k + b) / 8 = k := by omega
      have e2 : (8 * k + b) % 8 = b := by omega
      rw [e0, e1, e2, List.getD_eq_getElem?_getD, List.getElem?_eq_getElem (by omega)]; rfl
    · by_cases h26 : n = 25
      · subst h26
        rw [getElem?_frameBytes_crc, List.getElem?_take_of_lt (by omega), List.getD_eq_getElem?_getD,
          List.getElem?_eq_getElem (by omega)]; rfl
      · rw [List.getElem?_eq_none (by rw [length_frameBytes]; omega), List.getElem?_eq_none (by simp; omega)]

theorem startsWithHeader_iff (bs : List Byte) : startsWithHeader bs = true ↔ bs.take 3 = protocol.header := by
  match bs with
  | [] => simp [startsWithHeader]
  | [_] => simp [startsWithHeader]
  | [_, _] => simp [startsWithHeader]
  | _ :: _ :: _ :: _ =>
    simp only [startsWithHeader, List.isPrefixOf, List.take, Bool.and_true, Bool.and_eq_true, beq_iff_eq,
      List.cons.injEq, and_true]
    exact ⟨fun ⟨h1, h2, h3⟩ => ⟨h1.symm, h2.symm, h3.symm⟩, fun ⟨h1, h2, h3⟩ => ⟨h1.symm, h2.symm, h3.symm⟩⟩

end Sys2Proof.Machine
end

