-- ==== Sys2Proof/Laws/Crc.lean ====
section
/-! SUPPORT. The algebra of the CRC (40_crc8.md R116): every step is linear over exclusive-or and the table is a
permutation. -/

namespace Sys2Proof.Machine

theorem crcShift_xor (a b : Byte) : crcShift (a ^^^ b) = crcShift a ^^^ crcShift b := by
  have e : ∀ c : Byte, crcShift c = (c <<< 1) ^^^ (if c.msb then protocol.poly else 0) := by
    intro c; unfold crcShift; split <;> simp
  have hd : (a ^^^ b) <<< 1 = (a <<< 1) ^^^ (b <<< 1) := BitVec.shiftLeft_xor_distrib ..
  rw [e, e, e, BitVec.msb_xor, hd]
  cases a.msb <;> cases b.msb <;>
    simp only [Bool.false_bne, Bool.true_bne, Bool.not_true, Bool.not_false, if_true, Bool.false_eq_true, if_false]
  all_goals ac_nf
  all_goals simp

theorem crcShifts_xor (n : Nat) (a b : Byte) : crcShifts n (a ^^^ b) = crcShifts n a ^^^ crcShifts n b := by
  induction n generalizing a b with
  | zero => rfl
  | succ n ih => simp only [crcShifts, crcShift_xor, ih]

theorem tableEntry_xor (a b : Byte) : tableEntry (a ^^^ b) = tableEntry a ^^^ tableEntry b :=
  crcShifts_xor 8 a b

theorem tableEntry_eq_zero {a : Byte} (h : tableEntry a = 0) : a = 0 := by
  revert a; decide +kernel

theorem tableEntry_injective : Function.Injective tableEntry := by
  intro a b h
  have : tableEntry (a ^^^ b) = 0 := by rw [tableEntry_xor, h, BitVec.xor_self]; rfl
  exact BitVec.xor_eq_zero_iff.1 (tableEntry_eq_zero this)

theorem crc8Update_xor (c d a b : Byte) :
    crc8Update (c ^^^ d) (a ^^^ b) = crc8Update c a ^^^ crc8Update d b := by
  simp only [crc8Update_eq]
  rw [← tableEntry_xor]
  congr 1
  ac_rfl

theorem crc8Update_left_injective (b : Byte) : Function.Injective (crc8Update · b) := by
  intro c d h
  simp only [crc8Update_eq] at h
  simpa using tableEntry_injective h

theorem crc8Update_right_injective (c : Byte) : Function.Injective (crc8Update c) := by
  intro a b h
  simp only [crc8Update_eq] at h
  simpa using tableEntry_injective h

theorem crc8_eq_foldl (m : List Byte) : crc8 m = m.foldl crc8Update 0 := by
  simp [crc8]

theorem foldl_crc8Update_injective (m : List Byte) : Function.Injective (m.foldl crc8Update) := by
  induction m with
  | nil => exact fun _ _ h => h
  | cons b m ih => exact fun c d h => crc8Update_left_injective b (ih h)

/-- Changing one byte of a message changes its CRC (R116 (c)). -/
theorem crc8_replace_injective (m m' : List Byte) : Function.Injective fun x => crc8 (m ++ x :: m') := by
  intro x y h
  simp only [crc8_eq_foldl, List.foldl_append, List.foldl_cons] at h
  exact crc8Update_right_injective _ (foldl_crc8Update_injective m' h)

end Sys2Proof.Machine
end

