-- ==== Sys2Proof/Laws/Sync.lean ====
section
/-! SUPPORT. What one `SYNC` iteration decides and does, said once, and what `DRAIN` makes of it. -/

namespace Sys2Proof.Machine

/-! ## The decision (R141) -/

/-- The four ways an iteration can go (R141, R143 to R146). -/
theorem syncDecision_cases (acc : List Byte) :
    (syncDecision acc = .wait ∧ acc.length < 26) ∨
    (syncDecision acc = .slide ∧ 26 ≤ acc.length ∧ ∀ k, findHeader acc = some k → acc.length < k + 26) ∨
    ∃ k, findHeader acc = some k ∧ k + 26 ≤ acc.length ∧
      ((crcOk (window acc k) = true ∧ syncDecision acc = .accept k (window acc k)) ∨
        (crcOk (window acc k) = false ∧ syncDecision acc = .reject k)) := by
  unfold syncDecision enough fitsAt judgeCandidate crcOkAt memRead
  by_cases hlen : 26 ≤ acc.length
  · simp only [hlen, decide_true, if_true]
    cases hf : findHeader acc with
    | none => simp
    | some k =>
      by_cases hk : 26 ≤ acc.length - k
      · have : k + 26 ≤ acc.length := by omega
        cases hc : crcOk (window acc k) <;> simp_all [window]
      · simp [hk]; omega
  · simp [hlen]; omega

theorem syncDecision_eq_wait_iff {acc : List Byte} : syncDecision acc = .wait ↔ acc.length < 26 := by
  rcases syncDecision_cases acc with ⟨hd, h⟩ | ⟨hd, h, -⟩ | ⟨k, -, h, ⟨-, hd⟩ | ⟨-, hd⟩⟩ <;> simp [hd] <;> omega

theorem syncDecision_of_complete {acc : List Byte} {k : Nat} (h : findHeader acc = some k) (hk : k + 26 ≤ acc.length) :
    syncDecision acc = if crcOk (window acc k) then .accept k (window acc k) else .reject k := by
  rcases syncDecision_cases acc with ⟨-, h1⟩ | ⟨-, -, h1⟩ | ⟨j, hj, -, ⟨hc, hd⟩ | ⟨hc, hd⟩⟩
  · omega
  · have := h1 k h; omega
  · obtain rfl : j = k := by simpa [h, eq_comm] using hj
    simp [hc, hd]
  · obtain rfl : j = k := by simpa [h, eq_comm] using hj
    simp [hc, hd]

theorem syncDecision_of_slide {acc : List Byte} (hlen : 26 ≤ acc.length)
    (h : ∀ k, findHeader acc = some k → acc.length < k + 26) : syncDecision acc = .slide := by
  rcases syncDecision_cases acc with ⟨-, h1⟩ | ⟨hd, -⟩ | ⟨j, hj, hk, -⟩
  · omega
  · exact hd
  · have := h j hj; omega

theorem length_window {acc : List Byte} {k : Nat} (h : k + 26 ≤ acc.length) : (window acc k).length = 26 := by
  simp [window]; omega

theorem window_append {acc bs : List Byte} {k : Nat} (h : k + 26 ≤ acc.length) : window (acc ++ bs) k = window acc k :=
  memRead_append h

/-! ## The effect of a decision (R143 to R146) -/

@[simp] theorem afterDecision_wait (s : State) : afterDecision .wait s = s := rfl

theorem afterDecision_slide {s : State} (h : 1 ≤ s.acc.length) :
    afterDecision .slide s = { s with acc := s.acc.drop 1, phase := .searching } := by
  have : applyDecision .slide s = .ok (setPhase .searching (dropHead 1 s)) := by
    simp only [applyDecision, slideByOne, discardBytes_of_le h]; rfl
  simp only [afterDecision, this, commit]; rfl

theorem afterDecision_reject {s : State} {k : Nat} (h : k + 1 ≤ s.acc.length) :
    afterDecision (.reject k) s = { s with acc := s.acc.drop (k + 1), phase := .searching } := by
  have h' : k + 1 ≤ (setPhase .rejected s).acc.length := h
  have : applyDecision (.reject k) s = .ok (setPhase .searching (dropHead (k + 1) (setPhase .rejected s))) := by
    simp only [applyDecision, rejectCandidate, discardBytes_of_le h']; rfl
  simp only [afterDecision, this, commit]; rfl

theorem recordAcceptance_rt_of_eq {s t : State} (hp : s.params = t.params) (hn : s.now = t.now) (hr : s.rt = t.rt)
    (hd : s.rtDraws = t.rtDraws) :
    (recordAcceptance s).rt = (recordAcceptance t).rt ∧ (recordAcceptance s).rtDraws = (recordAcceptance t).rtDraws := by
  unfold recordAcceptance recordFrame
  rw [hp, hn, hr, hd]
  split
  · split <;> simp
  · simp [hr, hd]

/-- What ACCEPT makes of the state before its discard (R145). -/
theorem accepted_eq (f : List Byte) (v : ChannelSet) (s : State) :
    recordAcceptance (emitAccept f v (publish v (setPhase .accepted s))) =
      { s with
        ch := v, phase := .accepted, hist := s.hist ++ [{ frame := f, channels := v }],
        rt := (recordAcceptance s).rt, rtDraws := (recordAcceptance s).rtDraws } := by
  unfold recordAcceptance recordFrame emitAccept publish setPhase
  dsimp only
  split
  · split <;> rfl
  · rfl

theorem applyDecision_accept {s : State} {k : Nat} {f : List Byte} (hf : f.length = 26) (h : k + 26 ≤ s.acc.length) :
    applyDecision (.accept k f) s = .ok
      { s with
        acc := s.acc.drop (k + 26), ch := unpackChannels f, phase := .searching,
        hist := s.hist ++ [{ frame := f, channels := unpackChannels f }],
        rt := (recordAcceptance s).rt, rtDraws := (recordAcceptance s).rtDraws } := by
  have hd : decodeFrame f = .ok (unpackChannels f) := by simp [decodeFrame, hf]
  simp only [applyDecision, acceptCandidate, hd, bind, Except.bind, accepted_eq]
  rw [discardBytes_of_le (by simpa using h)]
  rfl

theorem afterDecision_accept {s : State} {k : Nat} {f : List Byte} (hf : f.length = 26) (h : k + 26 ≤ s.acc.length) :
    afterDecision (.accept k f) s =
      { s with
        acc := s.acc.drop (k + 26), ch := unpackChannels f, phase := .searching,
        hist := s.hist ++ [{ frame := f, channels := unpackChannels f }],
        rt := (recordAcceptance s).rt, rtDraws := (recordAcceptance s).rtDraws } := by
  rw [afterDecision, applyDecision_accept hf h]; rfl

/-- Every decision `SYNC` takes can be carried out: none raises a fault (R202). -/
theorem applyDecision_syncDecision (s : State) :
    applyDecision (syncDecision s.acc) s = .ok (afterDecision (syncDecision s.acc) s) := by
  have key : ∀ d, (∃ t, applyDecision d s = .ok t) → applyDecision d s = .ok (afterDecision d s) := by
    rintro d ⟨t, ht⟩; simp [afterDecision, ht, commit]
  refine key _ ?_
  rcases syncDecision_cases s.acc with ⟨hd, -⟩ | ⟨hd, hl, -⟩ | ⟨k, -, hk, ⟨-, hd⟩ | ⟨-, hd⟩⟩ <;> rw [hd]
  · exact ⟨s, rfl⟩
  · simp [applyDecision, slideByOne, discardBytes_of_le (show 1 ≤ s.acc.length by omega), Except.bind, bind, pure, Except.pure]
  · exact ⟨_, applyDecision_accept (length_window hk) hk⟩
  · have h' : k + 1 ≤ (setPhase .rejected s).acc.length := by simp; omega
    simp [applyDecision, rejectCandidate, discardBytes_of_le h', Except.bind, bind, pure, Except.pure]

theorem performDecision_syncDecision (s : State) :
    performDecision (syncDecision s.acc) s =
      answer (.outcome (syncDecision s.acc).outcome) (afterDecision (syncDecision s.acc) s) := by
  unfold performDecision
  rw [applyDecision_syncDecision]; rfl

/-- The state after one iteration, case by case: the inversion lemma of `SYNC`. -/
theorem afterDecision_cases (s : State) :
    (s.acc.length < 26 ∧ syncDecision s.acc = .wait ∧ afterDecision (syncDecision s.acc) s = s) ∨
    (26 ≤ s.acc.length ∧ syncDecision s.acc = .slide ∧ (∀ k, findHeader s.acc = some k → s.acc.length < k + 26) ∧
      afterDecision (syncDecision s.acc) s = { s with acc := s.acc.drop 1, phase := .searching }) ∨
    (∃ k, findHeader s.acc = some k ∧ k + 26 ≤ s.acc.length ∧ crcOk (window s.acc k) = true ∧
      syncDecision s.acc = .accept k (window s.acc k) ∧
      afterDecision (syncDecision s.acc) s =
        { s with
          acc := s.acc.drop (k + 26), ch := unpackChannels (window s.acc k), phase := .searching,
          hist := s.hist ++ [{ frame := window s.acc k, channels := unpackChannels (window s.acc k) }],
          rt := (recordAcceptance s).rt, rtDraws := (recordAcceptance s).rtDraws }) ∨
    (∃ k, findHeader s.acc = some k ∧ k + 26 ≤ s.acc.length ∧ crcOk (window s.acc k) = false ∧
      syncDecision s.acc = .reject k ∧
      afterDecision (syncDecision s.acc) s = { s with acc := s.acc.drop (k + 1), phase := .searching }) := by
  rcases syncDecision_cases s.acc with ⟨hd, h⟩ | ⟨hd, hl, h⟩ | ⟨k, hf, hk, ⟨hc, hd⟩ | ⟨hc, hd⟩⟩
  · exact .inl ⟨h, hd, by rw [hd]; rfl⟩
  · exact .inr (.inl ⟨hl, hd, h, by rw [hd]; exact afterDecision_slide (by omega)⟩)
  · exact .inr (.inr (.inl ⟨k, hf, hk, hc, hd, by rw [hd]; exact afterDecision_accept (length_window hk) hk⟩))
  · exact .inr (.inr (.inr ⟨k, hf, hk, hc, hd, by rw [hd]; exact afterDecision_reject (by omega)⟩))

theorem afterDecision_fault (s : State) : (afterDecision (syncDecision s.acc) s).fault = s.fault := by
  rcases afterDecision_cases s with ⟨-, -, h⟩ | ⟨-, -, -, h⟩ | ⟨k, -, -, -, -, h⟩ | ⟨k, -, -, -, -, h⟩ <;> rw [h]

/-- An iteration that is not WAIT removes at least one byte (R148). -/
theorem afterDecision_length_lt {s : State} (h : 26 ≤ s.acc.length) :
    (afterDecision (syncDecision s.acc) s).acc.length < s.acc.length := by
  rcases afterDecision_cases s with ⟨hl, -⟩ | ⟨-, -, -, h'⟩ | ⟨k, -, -, -, -, h'⟩ | ⟨k, -, -, -, -, h'⟩
  · omega
  all_goals rw [h']; simp; omega

/-! ## `DRAIN` (R148) -/

theorem drainSteps_of_short {s : State} (n : Nat) (h : s.acc.length < 26) : drainSteps n s = s := by
  cases n with
  | zero => rfl
  | succ n => unfold drainSteps; simp [syncDecision_eq_wait_iff.2 h]

theorem drainSteps_succ {s : State} (n : Nat) (hf : s.fault = .none) (h : 26 ≤ s.acc.length) :
    drainSteps (n + 1) s = drainSteps n (afterDecision (syncDecision s.acc) s) := by
  conv_lhs => unfold drainSteps
  simp only [hf, if_true]
  split
  · rename_i hw; rw [syncDecision_eq_wait_iff] at hw; omega
  · rfl

/-- Any number of iterations not less than the number of bytes comes to the same. -/
theorem drainSteps_eq {s : State} (hf : s.fault = .none) {n m : Nat} (hn : s.acc.length ≤ n) (hm : s.acc.length ≤ m) :
    drainSteps n s = drainSteps m s := by
  induction hl : s.acc.length using Nat.strong_induction_on generalizing s n m with
  | _ l ih =>
    by_cases h : s.acc.length < 26
    · rw [drainSteps_of_short n h, drainSteps_of_short m h]
    · obtain ⟨n, rfl⟩ : ∃ n', n = n' + 1 := ⟨n - 1, by omega⟩
      obtain ⟨m, rfl⟩ : ∃ m', m = m' + 1 := ⟨m - 1, by omega⟩
      have hlt := afterDecision_length_lt (s := s) (by omega)
      rw [drainSteps_succ n hf (by omega), drainSteps_succ m hf (by omega)]
      exact ih _ (by omega) (by rw [afterDecision_fault, hf]) (by omega) (by omega) rfl

theorem drainState_of_short {s : State} (h : s.acc.length < 26) : drainState s = s :=
  drainSteps_of_short _ h

/-- `DRAIN` unfolds into one `SYNC` and a `DRAIN` (R92, R148). -/
theorem drainState_step {s : State} (hf : s.fault = .none) (h : 26 ≤ s.acc.length) :
    drainState s = drainState (afterDecision (syncDecision s.acc) s) := by
  have hlt := afterDecision_length_lt h
  obtain ⟨n, hn⟩ : ∃ n, s.acc.length = n + 1 := ⟨s.acc.length - 1, by omega⟩
  unfold drainState
  rw [hn, drainSteps_succ n hf h]
  exact drainSteps_eq (by rw [afterDecision_fault, hf]) (by omega) le_rfl

/-- Reasoning about `DRAIN` by its iterations: what holds of every quiescent state and is carried back over an iteration
holds of every state without a fault. -/
theorem drain_induction {P : State → Prop} (short : ∀ s, s.fault = .none → s.acc.length < 26 → P s)
    (step : ∀ s, s.fault = .none → 26 ≤ s.acc.length → P (afterDecision (syncDecision s.acc) s) → P s)
    (s : State) (hf : s.fault = .none) : P s := by
  induction hl : s.acc.length using Nat.strong_induction_on generalizing s with
  | _ l ih =>
    by_cases h : s.acc.length < 26
    · exact short s hf h
    · have hlt := afterDecision_length_lt (s := s) (by omega)
      exact step s hf (by omega) (ih _ (by omega) _ (by rw [afterDecision_fault, hf]) rfl)

theorem drainState_spec (s : State) (hf : s.fault = .none) :
    (drainState s).acc.length < 26 ∧ (drainState s).fault = .none := by
  refine drain_induction (P := fun s => (drainState s).acc.length < 26 ∧ (drainState s).fault = .none) ?_ ?_ s hf
  · intro s hf h; rw [drainState_of_short h]; exact ⟨h, hf⟩
  · intro s hf h ih; rw [drainState_step hf h]; exact ih

/-! ## The value an operation hands over plays no part -/

theorem afterDecision_answer (r : Result) (s : State) :
    afterDecision (syncDecision s.acc) (answer r s) = answer r (afterDecision (syncDecision s.acc) s) := by
  rcases afterDecision_cases s with ⟨-, hd, h⟩ | ⟨hl, hd, -, h⟩ | ⟨k, -, hl, -, hd, h⟩ | ⟨k, -, hl, -, hd, h⟩ <;>
    rw [hd] at h ⊢ <;> rw [h]
  · rfl
  · rw [afterDecision_slide (by simp; omega)]; rfl
  · rw [afterDecision_accept (length_window hl) (by simpa using hl)]
    have := recordAcceptance_rt_of_eq (s := answer r s) (t := s) rfl rfl rfl rfl
    simp only [this.1, this.2]; rfl
  · rw [afterDecision_reject (by simp; omega)]; rfl

theorem drainState_answer (r : Result) (s : State) (hf : s.fault = .none) :
    drainState (answer r s) = answer r (drainState s) := by
  refine drain_induction (P := fun s => drainState (answer r s) = answer r (drainState s)) ?_ ?_ s hf
  · intro s _ h; rw [drainState_of_short h, drainState_of_short (by simpa using h)]
  · intro s hf h ih
    rw [drainState_step hf h, drainState_step (s := answer r s) hf (by simpa using h), answer_acc,
      afterDecision_answer, ih]

/-! ## Bytes that arrive later change no decision already taken (R63) -/

theorem afterDecision_addTail {s : State} (bs : List Byte) (h : 26 ≤ s.acc.length) :
    syncDecision (s.acc ++ bs) = syncDecision s.acc ∧
        afterDecision (syncDecision s.acc) (addTail bs s) = addTail bs (afterDecision (syncDecision s.acc) s) ∨
      syncDecision (s.acc ++ bs) ≠ .wait ∧
        afterDecision (syncDecision (s.acc ++ bs)) (addTail bs s) =
          afterDecision (syncDecision ((afterDecision (syncDecision s.acc) s).acc ++ bs))
            (addTail bs (afterDecision (syncDecision s.acc) s)) ∧
        26 ≤ ((afterDecision (syncDecision s.acc) s).acc ++ bs).length := by
  have hlen : (addTail bs s).acc.length = s.acc.length + bs.length := by simp
  rcases afterDecision_cases s with ⟨hl, -⟩ | ⟨-, hd, hn, he⟩ | ⟨k, hf, hk, hc, hd, he⟩ | ⟨k, hf, hk, hc, hd, he⟩
  · omega
  · rw [he, hd]
    rcases syncDecision_cases (s.acc ++ bs) with ⟨-, h1⟩ | ⟨hd', -, -⟩ | ⟨k, hf', hk', hcase⟩
    · simp at h1; omega
    · left
      refine ⟨hd', ?_⟩
      rw [afterDecision_slide (by omega)]
      rw [State.mk.injEq]
      simp [List.drop_append_of_le_length (show 1 ≤ s.acc.length by omega)]
    · right
      have hlt : s.acc.length < k + 26 := by
        by_contra hge
        have hfirst := (findHeader_eq_some_iff _ _).1 hf'
        have : findHeader s.acc = some k := by
          rw [findHeader_eq_some_iff]
          refine ⟨(headerOccurs_append (by omega)).1 hfirst.1, fun j hj hj' => hfirst.2 j hj ?_⟩
          exact (headerOccurs_append (by omega)).2 hj'
        have := hn k this; omega
      obtain ⟨k, rfl⟩ : ∃ k', k = k' + 1 := by
        cases k with
        | zero => omega
        | succ k => exact ⟨k, rfl⟩
      obtain ⟨b, rest, hacc⟩ : ∃ b rest, s.acc = b :: rest := by
        cases hs : s.acc with
        | nil => simp [hs] at h
        | cons b rest => exact ⟨b, rest, rfl⟩
      have hf'' : findHeader (rest ++ bs) = some k := by
        rw [findHeader_eq_some_iff] at hf' ⊢
        rw [hacc] at hf'
        refine ⟨(headerOccurs_cons_succ ..).1 hf'.1, fun j hj hj' => hf'.2 (j + 1) (by omega) ?_⟩
        exact (headerOccurs_cons_succ ..).2 hj'
      have hk'' : k + 26 ≤ (rest ++ bs).length := by rw [hacc] at hk'; simp at hk' ⊢; omega
      have hwin : window (s.acc ++ bs) (k + 1) = window (rest ++ bs) k := by rw [hacc]; rfl
      have hdr : s.acc.drop 1 = rest := by rw [hacc]; rfl
      have hbd : syncDecision (s.acc ++ bs) =
          if crcOk (window (rest ++ bs) k) then .accept (k + 1) (window (rest ++ bs) k) else .reject (k + 1) := by
        rw [syncDecision_of_complete hf' hk', hwin]
      have hbd' := syncDecision_of_complete hf'' hk''
      refine ⟨by rw [hbd]; split <;> simp, ?_, by simp [hdr] at hk'' ⊢; omega⟩
      rw [hbd]
      simp only [hdr]
      rw [hbd']
      split
      · rw [afterDecision_accept (length_window hk'') (by simpa using hk'),
          afterDecision_accept (length_window hk'') (by simpa using hk'')]
        have hrt := recordAcceptance_rt_of_eq (s := addTail bs s)
          (t := addTail bs { s with acc := rest, phase := .searching }) rfl rfl rfl rfl
        rw [State.mk.injEq]
        simp only [addTail_acc, hacc, hrt.1, hrt.2, and_true, addTail_hist, addTail_fault, addTail_params, addTail_now, addTail_schedule, addTail_result, addTail_chDraws, List.cons_append]
        rw [show k + 1 + 26 = (k + 26) + 1 by omega, List.drop_succ_cons]
      · rw [afterDecision_reject (by simp at hk' ⊢; omega), afterDecision_reject (by simp at hk'' ⊢; omega)]
        rw [State.mk.injEq]
        simp [hacc]
  · left
    have hf' := findHeader_append_of_some (bs := bs) hf
    have hk' : k + 26 ≤ (s.acc ++ bs).length := by simp; omega
    have hd' : syncDecision (s.acc ++ bs) = syncDecision s.acc := by
      rw [syncDecision_of_complete hf' hk', window_append hk, hd, hc]; rfl
    refine ⟨hd', ?_⟩
    rw [he, hd, afterDecision_accept (length_window hk) (by simpa using hk')]
    have hrt := recordAcceptance_rt_of_eq (s := addTail bs s) (t := s) rfl rfl rfl rfl
    rw [State.mk.injEq]
    simp [hrt.1, hrt.2, List.drop_append_of_le_length hk]
  · left
    have hf' := findHeader_append_of_some (bs := bs) hf
    have hk' : k + 26 ≤ (s.acc ++ bs).length := by simp; omega
    have hd' : syncDecision (s.acc ++ bs) = syncDecision s.acc := by
      rw [syncDecision_of_complete hf' hk', window_append hk, hd, hc]; rfl
    refine ⟨hd', ?_⟩
    rw [he, hd, afterDecision_reject (by simp at hk' ⊢; omega)]
    rw [State.mk.injEq]
    simp [List.drop_append_of_le_length (show k + 1 ≤ s.acc.length by omega)]

/-- Draining before more bytes arrive changes nothing once all is drained (R63). -/
theorem drainState_addTail_drainState (bs : List Byte) (s : State) (hf : s.fault = .none) :
    drainState (addTail bs (drainState s)) = drainState (addTail bs s) := by
  refine drain_induction (P := fun s => drainState (addTail bs (drainState s)) = drainState (addTail bs s)) ?_ ?_ s hf
  · intro s _ h; rw [drainState_of_short h]
  · intro s hf h ih
    have hfa : (afterDecision (syncDecision s.acc) s).fault = .none := by rw [afterDecision_fault, hf]
    rw [drainState_step hf h, ih]
    rw [drainState_step (s := addTail bs s) hf (by simp; omega)]
    rcases afterDecision_addTail bs h with ⟨hd, he⟩ | ⟨-, he, hl⟩
    · rw [addTail_acc, hd, he]
    · rw [addTail_acc, he]
      exact drainState_step (s := addTail bs _) hfa hl

end Sys2Proof.Machine
end

