-- ==== Sys2Proof/Laws/Exec.lean ====
section
/-! SUPPORT. What the synchronizer's meanings answer while no fault is recorded, in terms of one iteration, and how a frame
built from its fields looks to the header search, the window and the CRC check. -/

namespace Sys2Proof.Machine

theorem execSync_of_running {s : State} (hf : s.fault = .none) :
    execSync s = .next (answer (.outcome (syncDecision s.acc).outcome) (afterDecision (syncDecision s.acc) s)) := by
  simp [execSync, whenRunning, hf, performDecision_syncDecision]

theorem exec_outcomeInstr (o : SyncOutcome) (s : State) : exec (outcomeInstr o) s = syncAs o s := by
  cases o <;> rfl

theorem syncAs_of_running {s : State} (hf : s.fault = .none) (o : SyncOutcome) :
    syncAs o s =
      if (syncDecision s.acc).outcome = o then .next (afterDecision (syncDecision s.acc) s)
      else .refused .outcomeNotTaken := by
  simp [syncAs, whenRunning, hf]

theorem execDrain_of_running {s : State} (hf : s.fault = .none) : execDrain s = .next (drainState s) := by
  simp [execDrain, whenRunning, hf]

theorem execFeed_of_running {s : State} {bs : List Byte} (hf : s.fault = .none)
    (hc : capAdmits s.params (s.acc.length + bs.length) = true) :
    execFeed bs s = .next (drainState (addTail bs s)) := by
  simp [execFeed, (appendBytes_eq_next_iff (t := addTail bs s)).2 ⟨hf, hc, rfl⟩]

/-- What `RECORD_FRAME` at the port's time makes of a running state is what an acceptance makes of its rate tracker. -/
theorem execRecordFrame_port {s : State} (hf : s.fault = .none) :
    if s.params.hasRateTracker then execRecordFrame s.now s = .next (recordAcceptance s) else recordAcceptance s = s := by
  unfold recordAcceptance
  split
  · rename_i h; simp [execRecordFrame, h, whenRunning, hf]
  · rfl

/-! ## A frame built from its fields -/

theorem headerOccurs_frameBytes (ch : ChannelSet) (crc : Byte) (rest : List Byte) :
    HeaderOccurs (frameBytes ch crc ++ rest) 0 := by
  simp [frameBytes, HeaderOccurs]

theorem findHeader_of_headerOccurs_zero {acc : List Byte} (h : HeaderOccurs acc 0) : findHeader acc = some 0 :=
  (findHeader_eq_some_iff acc 0).2 ⟨h, by omega⟩

theorem take_frameBytes_append (ch : ChannelSet) (crc : Byte) (rest : List Byte) :
    (frameBytes ch crc ++ rest).take 26 = frameBytes ch crc := by
  rw [List.take_append_of_le_length (by simp [length_frameBytes])]
  exact List.take_of_length_le (by simp [length_frameBytes])

theorem drop_frameBytes_append (ch : ChannelSet) (crc : Byte) (rest : List Byte) :
    (frameBytes ch crc ++ rest).drop 26 = rest := by
  rw [List.drop_append_of_le_length (by simp [length_frameBytes]), List.drop_of_length_le (by simp [length_frameBytes])]
  rfl

theorem crcSpan_frameBytes (ch : ChannelSet) (crc : Byte) : crcSpan (frameBytes ch crc) = 0x16 :: regionBytes ch := by
  have h : (regionBytes ch ++ [crc]).take 22 = regionBytes ch := by
    rw [List.take_append_of_le_length (by simp [length_regionBytes])]
    exact List.take_of_length_le (by simp [length_regionBytes])
  exact congrArg (0x16#8 :: ·) h

theorem unpackChannels_frameBytes (ch : ChannelSet) (crc : Byte) : unpackChannels (frameBytes ch crc) = ch := by
  rw [← List.append_nil (frameBytes ch crc)]; exact unpackChannels_frameBytes_append ch crc []

/-- The CRC check passes on exactly the CRC byte R83 asks for. -/
theorem crcOk_frameBytes_iff (ch : ChannelSet) (crc : Byte) : crcOk (frameBytes ch crc) = true ↔ crc = frameCrc ch := by
  have h : (frameBytes ch crc).getD 25 0 = crc := by
    rw [List.getD_eq_getElem?_getD, getElem?_frameBytes_crc]; rfl
  rw [crcOk, frameCrc, crcSpan_frameBytes, crcSpan_frameBytes, protocol_crcPos, h, beq_iff_eq, eq_comm]

/-- A frame at the head of the accumulator is the candidate of the iteration, at offset 0. -/
theorem judgeCandidate_of_frame_at_head {acc : List Byte} {ch : ChannelSet} {crc : Byte}
    (h : memRead acc 0 protocol.packetSize = frameBytes ch crc) : judgeCandidate acc 0 = syncDecision acc := by
  have hl : 0 + 26 ≤ acc.length := by
    have := congrArg List.length h
    simp [memRead, length_frameBytes] at this
    omega
  have ha : acc = frameBytes ch crc ++ acc.drop 26 := by rw [← h]; simp [memRead]
  have h0 : HeaderOccurs acc 0 := by rw [ha]; exact headerOccurs_frameBytes ..
  rw [syncDecision_of_complete (findHeader_of_headerOccurs_zero h0) hl]; rfl

/-- The frame row is refused, or does what `SYNC` does. -/
theorem execFrameRc16_eq (ch : ChannelSet) (crc : Byte) (s : State) :
    execFrameRc16 ch crc s =
      if memRead s.acc 0 protocol.packetSize = frameBytes ch crc then execSync s
      else whenRunning s (.refused .frameNotAtHead) := by
  unfold execFrameRc16 execSync
  split
  · rename_i h; rw [judgeCandidate_of_frame_at_head h]
  · rfl

end Sys2Proof.Machine
end

