-- ==== Sys2Proof/Laws/Inversion.lean ====
section
/-! SUPPORT. What an operation can do, said once: a next state of a disciplined operation is reached by appends, iterations of
`SYNC`, handed-over values and `RESET`, so that what these keep every such operation keeps. The four internal operations
have their own equations. -/

namespace Sys2Proof.Machine

variable {Inv : State → Prop}

theorem drainState_preserves
    (iterate : ∀ s, Inv s → s.fault = .none → Inv (afterDecision (syncDecision s.acc) s))
    {s : State} (hf : s.fault = .none) (hs : Inv s) : Inv (drainState s) := by
  refine drain_induction (P := fun s => Inv s → Inv (drainState s)) ?_ ?_ s hf hs
  · intro s _ h hs; rwa [drainState_of_short h]
  · intro s hf h ih hs; rw [drainState_step hf h]; exact ih (iterate s hs hf)

theorem pushAndDrainEach_preserves
    (append : ∀ bs s, Inv s → s.fault = .none → capAdmits s.params (s.acc.length + bs.length) = true → Inv (addTail bs s))
    (iterate : ∀ s, Inv s → s.fault = .none → Inv (afterDecision (syncDecision s.acc) s))
    {bs : List Byte} {s t : State} (hs : Inv s) (h : pushAndDrainEach bs s = .next t) : Inv t := by
  induction bs generalizing s with
  | nil => cases h; exact hs
  | cons b bs ih =>
    unfold pushAndDrainEach at h
    split at h
    · rename_i u hu
      obtain ⟨hf, hc, rfl⟩ := appendBytes_eq_next_iff.1 hu
      exact ih (drainState_preserves iterate (s := addTail [b] s) hf (append _ s hs hf hc)) h
    · cases h
    · cases h

/-- What appends, iterations, handed-over values and `RESET` keep, every disciplined operation keeps. -/
theorem exec_preserves {i : Instr} {s t : State} (hi : i.disciplined = true)
    (append : ∀ bs s, Inv s → s.fault = .none → capAdmits s.params (s.acc.length + bs.length) = true → Inv (addTail bs s))
    (iterate : ∀ s, Inv s → s.fault = .none → Inv (afterDecision (syncDecision s.acc) s))
    (hand : ∀ r s, Inv s → Inv (answer r s))
    (reset : i = .reset → Inv (resetState s))
    (hs : Inv s) (h : exec i s = .next t) : Inv t := by
  have happ : ∀ {bs u}, appendBytes bs s = .next u → Inv u ∧ u.fault = .none := by
    intro bs u hu
    obtain ⟨hf, hc, rfl⟩ := appendBytes_eq_next_iff.1 hu
    exact ⟨append bs s hs hf hc, hf⟩
  have hsync : execSync s = .next t → Inv t := by
    intro h
    by_cases hf : s.fault = .none
    · rw [execSync_of_running hf] at h; cases h; exact hand _ _ (iterate s hs hf)
    · simp [execSync, whenRunning, hf] at h
  have hsyncAs : ∀ {o}, syncAs o s = .next t → Inv t := by
    intro o h
    by_cases hf : s.fault = .none
    · rw [syncAs_of_running hf] at h
      split at h
      · cases h; exact iterate s hs hf
      · cases h
    · simp [syncAs, whenRunning, hf] at h
  cases i with
  | frameRc16 ch crc =>
    rw [exec, execFrameRc16_eq] at h
    split at h
    · exact hsync h
    · unfold whenRunning at h; split at h <;> cases h
  | reset => cases h; exact reset rfl
  | append bs => exact (happ h).1
  | push b => exact (happ h).1
  | discard n => cases hi
  | find => cases h; exact hand _ s hs
  | crc8Update c b => cases h; exact hand _ s hs
  | crc8 m => cases h; exact hand _ s hs
  | crcchk f => cases h; exact hand _ s hs
  | sync => exact hsync h
  | syncWait => exact hsyncAs h
  | syncSlide => exact hsyncAs h
  | syncAccept => exact hsyncAs h
  | syncReject => exact hsyncAs h
  | drain =>
    by_cases hf : s.fault = .none
    · rw [exec, execDrain_of_running hf] at h; cases h; exact drainState_preserves iterate hf hs
    · simp [exec, execDrain, whenRunning, hf] at h
  | decode f => cases hi
  | publish v => cases hi
  | snap => cases h; exact hand _ s hs
  | recordFrame now => cases hi
  | readFps =>
    rw [exec, execReadFps] at h
    split at h
    · cases h; exact hand _ s hs
    · cases h
  | feed bs =>
    rw [exec, execFeed] at h
    split at h
    · rename_i u hu
      cases h; exact drainState_preserves iterate (happ hu).2 (happ hu).1
    · cases h
    · cases h
  | feed1 bs => exact pushAndDrainEach_preserves append iterate hs h
  | pack v => cases h; exact hand _ s hs

/-- What a direct `DISCARD` can do. -/
theorem execDiscard_next {n : Nat} {s t : State} (h : execDiscard n s = .next t) :
    s.fault = .none ∧ (t = dropHead n s ∨ t = raiseFault (.discardOverrun n s.acc.length) s) := by
  unfold execDiscard whenRunning at h
  split at h
  · rename_i hf
    refine ⟨hf, ?_⟩
    cases h
    unfold discardBytes
    split
    · exact .inr rfl
    · exact .inl rfl
  · cases h

/-- What a direct `DECODE` can do. -/
theorem execDecode_next {f : List Byte} {s t : State} (h : execDecode f s = .next t) :
    (f.length = 26 ∧ t = answer (.channels (unpackChannels f)) s) ∨
      (f.length ≠ 26 ∧ s.fault = .none ∧ t = raiseFault (.decodeLength f.length) s) := by
  unfold execDecode decodeFrame at h
  by_cases hl : f.length = protocol.packetSize
  · rw [if_pos hl] at h; cases h; exact .inl ⟨hl, rfl⟩
  · rw [if_neg hl] at h
    unfold whenRunning at h
    simp only [] at h
    split at h
    · rename_i hf; cases h; exact .inr ⟨hl, hf, rfl⟩
    · cases h

/-- What a direct `PUBLISH` can do. -/
theorem execPublish_next {v : ChannelSet} {s t : State} (h : execPublish v s = .next t) :
    s.fault = .none ∧ t = publish v s := by
  unfold execPublish whenRunning at h
  split at h
  · rename_i hf; cases h; exact ⟨hf, rfl⟩
  · cases h

/-- What a direct `RECORD_FRAME` can do. -/
theorem execRecordFrame_next {now : Nat} {s t : State} (h : execRecordFrame now s = .next t) :
    s.params.hasRateTracker = true ∧ s.fault = .none ∧ t = recordFrame now s := by
  unfold execRecordFrame whenRunning at h
  split at h
  · rename_i hr
    split at h
    · rename_i hf; cases h; exact ⟨hr, hf, rfl⟩
    · cases h
  · cases h

end Sys2Proof.Machine
end

