-- ==== Sys2Proof/Laws/PerInstr.lean ====
section
/-! SUPPORT. Facts stated for every instruction as syntax, one lemma per constructor: an encoding, where there is one, has
26 bytes and begins with the header (30_encoding.md R80, R81, R90). -/

namespace Sys2Proof.Laws.EncodedFrame

/-- What the bytes of an encoded instruction look like. -/
def Statement (i : Instr) : Prop :=
  ∀ bs, encode i = some bs → bs.length = 26 ∧ bs.take 3 = Machine.protocol.header

theorem frameRc16 (ch : ChannelSet) (crc : Byte) : Statement (.frameRc16 ch crc) := by
  rintro bs ⟨⟩
  exact ⟨Machine.length_frameBytes .., Machine.take_three_frameBytes ..⟩

theorem reset : Statement .reset := nofun

theorem append (s : List Byte) : Statement (.append s) := nofun

theorem push (b : Byte) : Statement (.push b) := nofun

theorem discard (n : Nat) : Statement (.discard n) := nofun

theorem find : Statement .find := nofun

theorem crc8Update (c b : Byte) : Statement (.crc8Update c b) := nofun

theorem crc8 (m : List Byte) : Statement (.crc8 m) := nofun

theorem crcchk (f : Vector Byte 26) : Statement (.crcchk f) := nofun

theorem sync : Statement .sync := nofun

theorem syncWait : Statement .syncWait := nofun

theorem syncSlide : Statement .syncSlide := nofun

theorem syncAccept : Statement .syncAccept := nofun

theorem syncReject : Statement .syncReject := nofun

theorem drain : Statement .drain := nofun

theorem decode (f : List Byte) : Statement (.decode f) := nofun

theorem publish (v : ChannelSet) : Statement (.publish v) := nofun

theorem snap : Statement .snap := nofun

theorem recordFrame (now : Nat) : Statement (.recordFrame now) := nofun

theorem readFps : Statement .readFps := nofun

theorem feed (s : List Byte) : Statement (.feed s) := nofun

theorem feed1 (s : List Byte) : Statement (.feed1 s) := nofun

theorem pack (v : ChannelSet) : Statement (.pack v) := nofun

end Sys2Proof.Laws.EncodedFrame
end

