-- ==== Sys2Proof/Tests/Slice0.lean ====
section
/-! SUPPORT. Tests. Every expected value is the spec's: the vectors and programs of 95_test_vectors.md and the worked examples
of the rules, named in each comment. The second part shows, for every statement with hypotheses, a state and operands that
meet them. -/

namespace Sys2Proof.Tests

open Machine

/-! ## Operands of the tests -/

/-- Frame Z of 95_test_vectors.md. -/
def frameZ : List Byte :=
  [0xC8, 0x18, 0x16, 0x00, 0x00, 0x00, 0x00, 0x00, 0x00, 0x00, 0x00, 0x00, 0x00,
   0x00, 0x00, 0x00, 0x00, 0x00, 0x00, 0x00, 0x00, 0x00, 0x00, 0x00, 0x00, 0xEF]

/-- Frame V of 95_test_vectors.md. -/
def frameV : List Byte :=
  [0xC8, 0x18, 0x16, 0xAC, 0x00, 0xDF, 0xC4, 0x01, 0xF0, 0xFF, 0x00, 0x00, 0xB0,
   0xAA, 0xAA, 0x22, 0x03, 0x32, 0x58, 0x02, 0x19, 0xFA, 0x60, 0x89, 0x57, 0xE6]

/-- The channels of frame V. -/
def channelsV : ChannelSet :=
  #v[172, 992, 1811, 0, 2047, 1, 1024, 1365, 682, 100, 200, 300, 400, 500, 600, 700]

/-- Frame I of 95_test_vectors.md. -/
def frameI : List Byte :=
  [0xC8, 0x18, 0x16, 0x01, 0x10, 0xC0, 0x00, 0x08, 0x50, 0x00, 0x03, 0x1C, 0x00,
   0x01, 0x09, 0x50, 0xC0, 0x02, 0x18, 0xD0, 0x00, 0x07, 0x3C, 0x00, 0x02, 0xFC]

/-- The channels of frame I. -/
def channelsI : ChannelSet :=
  #v[1, 2, 3, 4, 5, 6, 7, 8, 9, 10, 11, 12, 13, 14, 15, 16]

/-- The reset state with bytes in the accumulator. -/
def holding (bs : List Byte) : State :=
  { State.reset with acc := bs }

/-- The same with a finite `ACC_CAP`. -/
def capped (cap : Nat) (bs : List Byte) : State :=
  { holding bs with params := { defaultParams with accCap := some cap } }

/-- The reset state with the rate tracker attached, 1000 ticks a second (R196). -/
def tracked : State :=
  { State.reset with params := { defaultParams with hasRateTracker := true } }

/-- A faulted state (95_test_vectors.md section 8). -/
def faulted : State :=
  { holding [0xAA, 0xBB, 0xCC] with fault := .discardOverrun 4 3 }

/-- A field of the next state, where there is one. -/
def after {α : Type} (f : State → α) : Host.Outcome State Fault Refusal → Option α
  | .next s => some (f s)
  | .fault _ => none
  | .refused _ => none

/-! ## Well-formedness: each check refuses an ill-formed term -/

theorem test_wellFormed_frame_crc :
    (Instr.frameRc16 (Vector.replicate 16 0) 0xEF).wellFormed = true ∧
      (Instr.frameRc16 (Vector.replicate 16 0) 0xEE).wellFormed = false := by decide +kernel

theorem test_wellFormed_decode_length :
    (Instr.decode frameV).wellFormed = true ∧ (Instr.decode (frameV.take 25)).wellFormed = false := by decide

/-! ## The frame's encoding, bit by bit -/

/-- R82's table: bit 0 and bit 10 of every channel, as frame bits `24 + 11 i` and `34 + 11 i` (section 4.3). -/
theorem test_decode_lowest_and_highest_bits :
    (∀ i : Fin 16, decodeTableWord 208 (0x1618C8 + 2 ^ (24 + 11 * i.val)) =
      some (.frameRc16 ((Vector.replicate 16 0).set i 1) 0)) ∧
    (∀ i : Fin 16, decodeTableWord 208 (0x1618C8 + 2 ^ (34 + 11 * i.val)) =
      some (.frameRc16 ((Vector.replicate 16 0).set i 1024) 0)) := by decide +kernel

/-- The frame table of section 1 (frames V and I). -/
theorem test_decode_frames :
    decode frameV = .ok (.frameRc16 channelsV 0xE6, []) ∧ decode (frameI ++ [0xBB]) = .ok (.frameRc16 channelsI 0xFC, [0xBB]) := by
  constructor <;> rfl

/-- R88: two header bytes right and one wrong, and too few bytes. -/
theorem test_decode_refuses :
    decode (0xC8 :: 0x18 :: 0x17 :: frameV.drop 3) = .error .noHeader ∧ decode (frameV.take 25) = .error .tooShort := by
  constructor <;> rfl

/-- R5's consistency of the literals. -/
theorem test_literals_agree : protocol.headerLen + protocol.numChannels * protocol.chBits / 8 + 1 = protocol.packetSize ∧
      protocol.header.length = protocol.headerLen := by decide

/-! ## The CRC checker -/

/-- Section 2.3. -/
theorem test_crc8_messages :
    crc8 [0x01, 0x02, 0x03] = 0x3F ∧ crc8 [0xC8, 0x18, 0x16] = 0x71 ∧ crc8 [0xFF, 0xFF, 0xFF, 0xFF] = 0x21 ∧
      crc8 [0x31, 0x32, 0x33, 0x34, 0x35, 0x36, 0x37, 0x38, 0x39] = 0xBC := by decide +kernel

/-- Section 2.2. -/
theorem test_crc8Update :
    after State.result (exec (.crc8Update 0xD3 0xAC) State.reset) = some (.crc 0x16) ∧
      after State.result (exec (.crc8Update 0xD5 0x01) State.reset) = some (.crc 0xDE) := by decide +kernel

/-- Section 2.4: offsets 0 and 1 are not looked at, offset 24 and the CRC byte are. -/
theorem test_crcchk :
    crcOk frameV = true ∧ crcOk (0x00 :: 0x00 :: frameV.drop 2) = true ∧ crcOk (frameV.set 24 0x56) = false ∧
      crcOk (frameV.set 25 0xE7) = false := by decide +kernel

/-! ## Accumulator and search -/

/-- Section 5.1. -/
theorem test_discard_all_and_one_more :
    after State.acc (exec (.discard 3) (holding [0xAA, 0xBB, 0xCC])) = some [] ∧
      exec (.discard 4) (holding [0xAA, 0xBB, 0xCC]) = .next faulted := by
  constructor <;> rfl

/-- Section 5.2. -/
theorem test_find :
    findHeader [0xC8, 0x18, 0xC8, 0x18, 0x16] = some 2 ∧ findHeader [0xC8, 0xC8, 0x18, 0x16] = some 1 ∧
      findHeader [0xC8, 0x18, 0x16, 0xC8, 0x18, 0x16] = some 0 ∧ findHeader [0x16, 0x18, 0xC8] = none ∧
      findHeader [0xAA, 0xC8, 0x18] = none := by decide

/-! ## The synchronizer's programs -/

/-- Program P1, fed as one chunk and byte by byte. -/
theorem test_program_P1 :
    after (fun s => (s.acc, s.ch, s.hist)) (exec (.feed (0xAA :: frameV ++ [0xBB])) State.reset) =
        some ([0xBB], channelsV, [{ frame := frameV, channels := channelsV }]) ∧
      after (fun s => (s.acc, s.ch, s.hist)) (exec (.feed1 (0xAA :: frameV ++ [0xBB])) State.reset) =
        some ([0xBB], channelsV, [{ frame := frameV, channels := channelsV }]) := by decide +kernel

/-- Program P2: one byte goes, nothing is accepted. -/
theorem test_program_P2 :
    after (fun s => (s.acc, s.hist, s.result)) (exec .sync (holding (frameV.set 25 0xE7))) =
      some ((frameV.set 25 0xE7).drop 1, [], .outcome .reject) := by decide +kernel

/-- Program P3: the real frame behind a false header is accepted. -/
theorem test_program_P3 :
    after (fun s => (s.acc, s.ch, accepts s)) (exec (.feed ([0xC8, 0x18, 0x16, 0x11, 0x22] ++ frameI)) State.reset) =
      some ([], channelsI, 1) := by decide +kernel

/-- Program P7 after chunk 1: SLIDE, not WAIT. -/
theorem test_program_P7 :
    after (fun s => (s.acc, s.result)) (exec .sync (holding (0x55 :: frameV.take 25))) =
      some (frameV.take 25, .outcome .slide) := by decide +kernel

/-- Program P9: a false acceptance that swallows the start of a real frame. -/
theorem test_program_P9 :
    after (fun s => (s.acc, s.ch)) (exec (.feed ([0xC8, 0x18, 0x16, 0x10, 0x20, 0x30, 0x40, 0x50, 0x60, 0x70, 0x80, 0x90,
        0x17] ++ frameV)) State.reset) =
      some (frameV.drop 13, #v[16, 1540, 256, 40, 1798, 256, 1508, 1600, 1560, 1410, 1026, 623, 28, 2016, 63, 0]) := by
  decide +kernel

/-- Program P8: after the reset the rest of the frame is noise. -/
theorem test_program_P8 :
    after (fun s => (s.acc, s.hist, accepts s)) (execAll [.feed (frameV ++ [0xC8, 0x18, 0x16, 0xAC]), .drain, .reset,
        .feed (frameV.drop 4)] State.reset) = some (frameV.drop 4, [], 0) := by decide +kernel

/-- R151's table. -/
theorem test_phase_paths :
    phasePath .accept = [.searching, .candidateFound, .validating, .accepted, .searching] ∧
      phasePath .reject = [.searching, .candidateFound, .validating, .rejected, .searching] := by decide

/-! ## Decoder and packer -/

/-- Section 4.4, first row. -/
theorem test_decode_bytes_in_order :
    after State.result (exec (.decode ([0xC8, 0x18, 0x16] ++ ((List.range 22).map (BitVec.ofNat 8)) ++ [0x8D])) State.reset) =
      some (.channels #v[256, 64, 12, 642, 96, 14, 578, 80, 1035, 417, 1080, 7, 273, 1572, 1284, 168]) := by decide +kernel

/-- Section 8: a wrong length on either side. -/
theorem test_decode_length_faults :
    after faultId (exec (.decode (frameV.take 25)) State.reset) = some 2 ∧
      after State.fault (exec (.decode (frameV ++ [0])) State.reset) = some (.decodeLength 27) := by decide

/-- R94 on the channels of V and I. -/
theorem test_pack :
    after State.result (exec (.pack channelsV) State.reset) = some (.frame frameV) ∧
      after State.result (exec (.pack channelsI) State.reset) = some (.frame frameI) := by decide +kernel

/-! ## Rate tracker -/

/-- Section 7, the first table. -/
theorem test_recordFrame_table :
    after State.rt (execAll [.recordFrame 999] tracked) = some { lastReset := 0, count := 1, fps := 0 } ∧
      after State.rt (execAll [.recordFrame 999, .recordFrame 1000, .recordFrame 1001, .recordFrame 2001] tracked) =
        some { lastReset := 2001, count := 0, fps := 2000 / 1001 } := by decide +kernel

/-- Section 7: a single frame at tick 4000, read by `READ_FPS`; and the acceptance event at tick 1000. -/
theorem test_readFps :
    after State.result (execAll [.recordFrame 4000, .readFps] tracked) = some (.fps (1 / 4)) ∧
      after (fun s => s.rt.fps) (exec (.feed frameV) { tracked with now := 1000 }) = some 1 := by decide +kernel

/-! ## The step and the host's words -/

/-- The word of frame V, byte 0 lowest, is accepted by the first step after reset. -/
theorem test_first_step_accepts_V :
    after (fun s => (s.ch, s.acc)) (step (State.reset.withFetchWord 208
        (frameV.foldr (fun b n => b.toNat + 256 * n) 0))) = some (channelsV, []) := by decide +kernel

/-- The bare pattern of the frame row has the wrong CRC byte (frame Z's is EF) and is rejected. -/
theorem test_first_step_rejects_the_bare_pattern :
    step (State.reset.withFetchWord 208 0x1618C8) =
      exec (.frameRc16 (Vector.replicate 16 0) 0) (State.reset.withFetchWord 208 0x1618C8) ∧
    after (fun s => s.acc.length) (step (State.reset.withFetchWord 208 0x1618C8)) = some 25 :=
  ⟨rfl, by decide +kernel⟩

/-- R231: from reset, with nothing scheduled, a step is a WAIT. -/
theorem test_step_from_reset_waits :
    step State.reset = .next { State.reset with result := .outcome .wait } := by rfl

/-! ## Witnesses: the hypotheses of each statement can be met -/

theorem witness_DecodeOfEncodeIsTheInstruction :
    encode (.frameRc16 channelsV 0xE6) = some frameV := by decide +kernel

theorem witness_EncodeOfDecodeIsTheBytes :
    decode (frameV ++ [0x01]) = .ok (.frameRc16 channelsV 0xE6, [0x01]) := by rfl

theorem witness_DecodeRecognisesTheHeaderOnly :
    (frameV.take 25).length < 26 ∧ (26 ≤ (0x00 :: frameV.drop 1).length ∧ ¬ HeaderOccurs (0x00 :: frameV.drop 1) 0) ∧
      (26 ≤ frameV.length ∧ HeaderOccurs frameV 0) := by decide

theorem witness_FrameAtTheHeadIsJudged :
    (holding (frameZ ++ [0x01])).fault = .none ∧
      (holding (frameZ ++ [0x01])).acc = frameBytes (Vector.replicate 16 0) 0xEF ++ [0x01] ∧
      (0xEF : Byte) = frameCrc (Vector.replicate 16 0) ∧ (0x00 : Byte) ≠ frameCrc (Vector.replicate 16 0) := by decide +kernel

theorem witness_CrcIsLinear : ([0x12, 0x34] : List Byte).length = ([0x56, 0x78] : List Byte).length := by decide

theorem witness_SingleBitErrorIsNotAccepted :
    State.reset.fault = .none ∧ State.reset.acc = [] ∧ State.reset.params.Legal ∧ ValidFrame frameV ∧ 0 < 26 ∧ 25 < 26 ∧
      0 < 8 ∧ 7 < 8 :=
  ⟨rfl, rfl, ⟨nofun, by decide⟩, by decide +kernel, by decide, by decide, by decide, by decide⟩

theorem witness_AppendAddsBytesAtTheTail :
    ((capped 26 (frameV.take 25)).fault = .none ∧ exec (.append [0xE6]) (capped 26 (frameV.take 25)) = .next (capped 26 frameV)) ∧
      exec (.append [0xE6]) (capped 26 frameV) = .refused .capacityExceeded ∧
      exec (.append [0xE6]) faulted = .fault .stoppedByFault := by
  refine ⟨⟨rfl, rfl⟩, rfl, rfl⟩

theorem witness_PushesReachTheAppendState :
    (capped 26 (frameV.take 25)).fault = .none ∧
      ∀ c, (capped 26 (frameV.take 25)).params.accCap = some c → (capped 26 (frameV.take 25)).acc.length + 1 ≤ c :=
  ⟨rfl, by rintro c ⟨⟩; decide⟩

theorem witness_DiscardRemovesTheHeadOrFaults :
    (holding [0xAA]).fault = .none ∧ 1 ≤ (holding [0xAA]).acc.length ∧ (holding [0xAA]).acc.length < 2 := by decide

theorem witness_AccumulatorGrowsAtTheTailOnly :
    Instr.push 0xAA ≠ .reset ∧ exec (.push 0xAA) State.reset = .next (holding [0xAA]) :=
  ⟨nofun, rfl⟩

theorem witness_SyncWaitsForTwentySixBytes :
    (holding (frameV.take 25)).fault = .none ∧ (holding (frameV.take 25)).acc.length < 26 := by decide

/-- The header at offset 1 of 26 bytes, so that 25 remain from it. -/
theorem witness_SyncSlidesByOneByte :
    (holding (0x55 :: frameV.take 25)).fault = .none ∧ 26 ≤ (holding (0x55 :: frameV.take 25)).acc.length ∧
      ∀ k, FirstHeader (holding (0x55 :: frameV.take 25)).acc k → (holding (0x55 :: frameV.take 25)).acc.length - k < 26 := by
  refine ⟨rfl, by decide, fun k hk => ?_⟩
  have : k ≠ 0 := by rintro rfl; exact absurd hk.1 (by decide)
  show 26 - k < 26
  omega

theorem witness_SyncAcceptsAValidCandidate :
    (holding (0xAA :: frameV)).fault = .none ∧ FirstHeader (holding (0xAA :: frameV)).acc 1 ∧
      1 + 26 ≤ (holding (0xAA :: frameV)).acc.length ∧ crcOk (window (holding (0xAA :: frameV)).acc 1) = true := by
  decide +kernel

theorem witness_SyncRejectsAFalseMatch :
    (holding (0xAA :: frameV.set 25 0xE7)).fault = .none ∧ FirstHeader (holding (0xAA :: frameV.set 25 0xE7)).acc 1 ∧
      1 + 26 ≤ (holding (0xAA :: frameV.set 25 0xE7)).acc.length ∧
      crcOk (window (holding (0xAA :: frameV.set 25 0xE7)).acc 1) = false := by decide +kernel

/-- For the statements whose only hypothesis is that no fault is recorded. -/
theorem witness_running : State.reset.fault = .none := rfl

theorem witness_DrainIsIdempotent : exec .drain State.reset = .next State.reset := rfl

theorem witness_IdleStepIsSync : State.reset.schedule = [] := rfl

theorem witness_NoiseThenFrameIsAcceptedOnce :
    State.reset.fault = .none ∧ State.reset.acc = [] ∧ State.reset.params.accCap = none ∧ ValidFrame frameI ∧
      ([0xC8, 0x18] : List Byte).length < 26 ∧
      ∀ k < ([0xC8, 0x18, 0x16, 0x11, 0x22] : List Byte).length,
        HeaderOccurs ([0xC8, 0x18, 0x16, 0x11, 0x22] ++ frameI) k →
          crcOk (window ([0xC8, 0x18, 0x16, 0x11, 0x22] ++ frameI) k) = false := by decide +kernel

theorem witness_RejectKeepsLaterHeaders :
    (after State.acc (exec .syncReject (holding ([0xC8, 0x18, 0x16, 0x11, 0x22] ++ frameI)))).isSome = true ∧
      FirstHeader ([0xC8, 0x18, 0x16, 0x11, 0x22] ++ frameI) 0 ∧ 0 < 5 ∧
      HeaderOccurs ([0xC8, 0x18, 0x16, 0x11, 0x22] ++ frameI) 5 := by decide +kernel

/-- For the three statements about `DECODE`: 26 bytes, and a length on either side. -/
theorem witness_decode_operands :
    frameV.length = 26 ∧ (frameV.take 25).length ≠ 26 ∧ (frameV ++ [0]).length ≠ 26 ∧ State.reset.fault = .none := by decide

theorem witness_RecordFrameCountsAndRollsOver :
    tracked.fault = .none ∧ tracked.params.hasRateTracker = true ∧ 0 < tracked.params.ticksPerSecond ∧
      tracked.rt.lastReset ≤ 999 ∧ 999 - tracked.rt.lastReset < tracked.params.ticksPerSecond ∧
      tracked.params.ticksPerSecond ≤ 1000 - tracked.rt.lastReset ∧ tracked.params.fpsFormat = .exact := by decide

theorem witness_BackwardTimeTouchesTheRateTrackerOnly :
    let s := { tracked with rt := { lastReset := 10, count := 0, fps := 0 } }
    s.fault = .none ∧ s.params.hasRateTracker = true ∧ 9 < s.rt.lastReset := by decide

theorem witness_ReadFpsReturnsTheEstimate :
    tracked.params.hasRateTracker = true ∧ State.reset.params.hasRateTracker = false := by decide

theorem witness_RateTrackerCanBeTakenOut : Instr.sync ≠ .readFps ∧ ∀ now, Instr.sync ≠ .recordFrame now :=
  ⟨nofun, nofun⟩

theorem witness_RateTrackerChangesOnAcceptanceOnly :
    Instr.drain ≠ .reset ∧ (∀ now, Instr.drain ≠ .recordFrame now) ∧ exec .drain tracked = .next tracked :=
  ⟨nofun, nofun, rfl⟩

theorem witness_FaultDisablesTheMutatingOperations :
    faulted.fault ≠ .none ∧ { faulted with params := tracked.params }.params.hasRateTracker = true := by decide

theorem witness_OnlyResetLeavesAFault :
    faulted.fault ≠ .none ∧ Instr.snap ≠ .reset ∧
      exec .snap faulted = .next { faulted with result := .channels (Vector.replicate 16 0) } :=
  ⟨by decide, nofun, rfl⟩

theorem witness_DisciplinedOperationsRaiseNoFault :
    (Instr.push 0xAA).disciplined = true ∧ State.reset.fault = .none ∧ exec (.push 0xAA) State.reset = .next (holding [0xAA]) :=
  ⟨rfl, rfl, rfl⟩

/-- A sound state with an acceptance in its history and an operation still to be performed. -/
def soundState : State :=
  { State.reset with
    ch := channelsV, hist := [{ frame := frameV, channels := channelsV }], schedule := [{ now := 5, op := .push 0xC8 }] }

theorem soundState_sound : Sound soundState where
  fault := rfl
  phase := rfl
  hist := by
    intro a ha
    obtain rfl : a = { frame := frameV, channels := channelsV } := by simpa [soundState] using ha
    exact ⟨rfl, rfl, by decide +kernel, by decide +kernel⟩
  published := by rintro a ⟨⟩; rfl
  capacity := nofun
  fps := le_refl _
  schedule := by
    intro e he
    obtain rfl : e = { now := 5, op := .push 0xC8 } := by simpa [soundState] using he
    rfl

theorem witness_EveryStepKeepsSound :
    Sound soundState ∧ step soundState = .next { soundState with acc := [0xC8], now := 5, schedule := [] } :=
  ⟨soundState_sound, rfl⟩

theorem witness_SnapShowsTheLatestAcceptedFrame :
    Sound soundState ∧ soundState.hist.getLast? = some { frame := frameV, channels := channelsV } :=
  ⟨soundState_sound, rfl⟩

theorem witness_ChannelsChangeOnAcceptanceOnly :
    Instr.feed frameV ≠ .reset ∧ (∀ v, Instr.feed frameV ≠ .publish v) ∧
      after (fun s => decide (s.hist ≠ State.reset.hist)) (exec (.feed frameV) State.reset) = some true ∧
      after (fun s => decide (s.hist = State.reset.hist)) (exec (.feed []) State.reset) = some true :=
  ⟨nofun, nofun, by decide +kernel, by decide +kernel⟩

theorem witness_ScheduleDoesNotMatter :
    let ops := [Instr.append (0xAA :: frameV.take 25), .sync, .append [0xE6]]
    let ops' := [Instr.append (0xAA :: frameV)]
    (∀ i ∈ ops, i.appendOrSync = true) ∧ (∀ i ∈ ops', i.appendOrSync = true) ∧ appendedBytes ops = appendedBytes ops' ∧
      after accepts (execAll (ops ++ [.drain]) State.reset) = some 1 ∧
      after accepts (execAll (ops' ++ [.drain]) State.reset) = some 1 := by decide +kernel

/-- At times that make the two rates differ, so that only what the statement names is equal. -/
theorem witness_ScheduleDoesNotMatterAtAnyTimes :
    let es := [Event.mk 20 (.append (0xAA :: frameV.take 25)), ⟨30, .sync⟩, ⟨40, .append [0xE6]⟩, ⟨50, .sync⟩]
    let es' := [Event.mk 10 (.append (0xAA :: frameV))]
    (∀ e ∈ es, e.op.appendOrSync = true) ∧ (∀ e ∈ es', e.op.appendOrSync = true) ∧
      appendedBytes (es.map Event.op) = appendedBytes (es'.map Event.op) ∧ tracked.fault = .none ∧
      after (fun t => (t.hist.length, t.rt.count)) (execAt (es ++ [⟨60, .drain⟩]) tracked) = some (1, 1) ∧
      after (fun t => (t.hist.length, t.rt.count)) (execAt (es' ++ [⟨1000, .drain⟩]) tracked) = some (1, 0) := by
  decide +kernel

/-- For the byte-serial statements and `FeedCompletes`, at the boundary: 25 bytes held, capacity 26. -/
theorem witness_feeding :
    (capped 26 (frameV.take 25)).fault = .none ∧ (capped 26 (frameV.take 25)).params.Legal ∧ Quiescent (capped 26 (frameV.take 25)) ∧
      (holding (frameV.take 25)).params.accCap = none ∧ Quiescent (holding (frameV.take 25)) ∧
      (capped 26 (frameV.take 25)).acc.length + 1 ≤ 26 :=
  ⟨rfl, ⟨by rintro c ⟨⟩; decide, by decide⟩, by decide, rfl, by decide, by decide⟩

/-- A reset, which writes the most, and an operation performed while more is scheduled. -/
theorem witness_OperationsWriteNoInput :
    exec .reset soundState = .next (resetState soundState) ∧ (resetState soundState).schedule = soundState.schedule ∧
      exec .sync soundState = .next { soundState with result := .outcome .wait } :=
  ⟨rfl, rfl, rfl⟩

/-- Settled though a read and a reset are still scheduled; and the two kinds of step there. -/
def settledState (ops : List Event) : State :=
  { soundState with acc := frameV.take 25, schedule := ops }

theorem witness_SettledStatesStaySettled :
    Sound (settledState [{ now := 5, op := .snap }]) ∧ Settled (settledState [{ now := 5, op := .snap }]) ∧
      nextOp (settledState [{ now := 5, op := .snap }]) ≠ .reset ∧
      step (settledState [{ now := 5, op := .snap }]) =
        .next { settledState [] with now := 5, result := .channels channelsV } ∧
      Settled (settledState [{ now := 5, op := .reset }]) ∧ ¬ Settled (settledState [{ now := 5, op := .push 0xE6 }]) :=
  ⟨{ soundState_sound with capacity := nofun, schedule := by intro e he; obtain rfl := List.mem_singleton.1 he; rfl },
    by decide, nofun, rfl, by decide, by decide⟩

theorem witness_StepRunsTheScheduledOperation : soundState.schedule = { now := 5, op := .push 0xC8 } :: [] := rfl

theorem witness_StepRunsTheDecodedFrame :
    (holding frameV).schedule = [] ∧ decode (holding frameV).acc = .ok (.frameRc16 channelsV 0xE6, []) :=
  ⟨rfl, rfl⟩

end Sys2Proof.Tests
end

-- ==== Proofs of the family 00_scope.md ====
section
/-! The inputs of a step (00_scope.md R6, 10_state.md R33) along the operations: each shared update leaves them alone, and the
inversion lemmas of `Sys2Proof/Laws/Inversion.lean` carry that to every instruction. -/

namespace Sys2Proof.Machine

/-- `t` has the model's own input fields of `s`. -/
def SameInputs (s t : State) : Prop :=
  t.params = s.params ∧ t.now = s.now ∧ t.schedule = s.schedule

theorem SameInputs.trans {s t u : State} (hst : SameInputs s t) (htu : SameInputs t u) : SameInputs s u := by
  obtain ⟨hp, hn, hs⟩ := hst
  obtain ⟨hp', hn', hs'⟩ := htu
  exact ⟨hp'.trans hp, hn'.trans hn, hs'.trans hs⟩

/-- An iteration of `SYNC` writes no input, whichever of its four outcomes it takes. -/
theorem sameInputs_afterDecision (s : State) : SameInputs s (afterDecision (syncDecision s.acc) s) := by
  rcases afterDecision_cases s with
      ⟨-, -, h⟩ | ⟨-, -, -, h⟩ | ⟨k, -, -, -, -, h⟩ | ⟨k, -, -, -, -, h⟩ <;>
    rw [h] <;> exact ⟨rfl, rfl, rfl⟩

/-- A disciplined operation is made of appends, iterations, handed-over values and `RESET`, and none writes an input. -/
theorem exec_sameInputs_of_disciplined {i : Instr} {s t : State} (hi : i.disciplined = true)
    (h : exec i s = .next t) : SameInputs s t := by
  refine exec_preserves (Inv := SameInputs s) hi ?append ?iterate ?hand ?reset ⟨rfl, rfl, rfl⟩ h
  case append => exact fun bs u hu _ _ => hu
  case iterate => exact fun u hu _ => hu.trans (sameInputs_afterDecision u)
  case hand => exact fun r u hu => hu
  case reset => exact fun _ => ⟨rfl, rfl, rfl⟩

/-- No operation writes an input; the four the worker performs inside `SYNC` only are taken one by one. -/
theorem exec_sameInputs {i : Instr} {s t : State} (h : exec i s = .next t) : SameInputs s t := by
  by_cases hi : i.disciplined = true
  · exact exec_sameInputs_of_disciplined hi h
  cases i with
  | discard n => obtain ⟨-, rfl | rfl⟩ := execDiscard_next h <;> exact ⟨rfl, rfl, rfl⟩
  | decode f => obtain ⟨-, rfl⟩ | ⟨-, -, rfl⟩ := execDecode_next h <;> exact ⟨rfl, rfl, rfl⟩
  | publish v => obtain ⟨-, rfl⟩ := execPublish_next h; exact ⟨rfl, rfl, rfl⟩
  | recordFrame now =>
    obtain ⟨-, -, rfl⟩ := execRecordFrame_next h
    exact ⟨recordFrame_params s now, recordFrame_now s now, recordFrame_schedule s now⟩
  | _ => exact absurd rfl hi

/-- Settles O52: an operation's next state has the inputs of the state it began in. -/
theorem operationsWriteNoInput : Obligations.OperationsWriteNoInput :=
  fun _ _ _ h => exec_sameInputs h

end Sys2Proof.Machine
end

/-! The state after reset and the invariant `Sound` along every step (10_state.md R34, R35), and when `CH`, `HIST` and `RT` may
change (R22, R30, R32). The inversion lemma of one `SYNC` iteration says what an acceptance writes; `exec_preserves` carries
that to every disciplined operation. -/

namespace Sys2Proof

open Machine

/-! ## Reset (R34) -/

theorem resetWith_atReset (p : Config.Params) (ch : ChannelSet) (now : Nat) : AtReset (State.resetWith p ch now) where
  acc := rfl
  phase := rfl
  fault := rfl
  hist := rfl
  rt _ := rfl

theorem resetState_atReset (s : State) : AtReset (resetState s) where
  acc := rfl
  phase := rfl
  fault := rfl
  hist := rfl
  rt h := if_pos h

/-- Settles O2: `State.reset` is one of the states `State.resetWith` gives. -/
theorem resetStateHoldsTheSpecValues : Obligations.ResetStateHoldsTheSpecValues :=
  ⟨resetWith_atReset .., resetWith_atReset⟩

/-- Where a state after reset is sound: R34 speaks neither of the schedule nor of `RT` where the unit is absent. -/
theorem AtReset.sound {s : State} (h : AtReset s) (hfps : s.params.hasRateTracker = false → 0 ≤ s.rt.fps)
    (hsched : ∀ e ∈ s.schedule, e.op.disciplined = true) : Sound s where
  fault := h.fault
  phase := h.phase
  hist := by simp [h.hist]
  published := by simp [h.hist]
  capacity := by simp [h.acc]
  fps := by
    by_cases hrt : s.params.hasRateTracker = true
    · rw [h.rt hrt]
    · exact hfps (Bool.eq_false_of_not_eq_true hrt)
  schedule := hsched

theorem resetWith_sound (p : Config.Params) (ch : ChannelSet) (now : Nat) : Sound (State.resetWith p ch now) :=
  (resetWith_atReset p ch now).sound (fun _ => le_rfl) nofun

/-- Settles O3: the states of R34 with nothing scheduled and no frame counted are sound. -/
theorem soundHoldsAtReset : Obligations.SoundHoldsAtReset :=
  ⟨resetWith_sound .., resetWith_sound⟩

/-! ## The rate is never negative (R30, R194, R195) -/

theorem roundFps_nonneg (fmt : Config.FpsFormat) {q : Rat} (hq : 0 ≤ q) : 0 ≤ roundFps fmt q := by
  cases fmt with
  | exact => exact hq
  | other k => exact le_max_left ..

theorem countFrame_fps_nonneg (p : Config.Params) (now : Nat) {rt : RateTracker} (h : 0 ≤ rt.fps) :
    0 ≤ (countFrame p now rt).fps := by
  unfold countFrame
  dsimp only
  split
  · exact roundFps_nonneg _ (by positivity)
  · exact h

theorem recordFrame_fps_nonneg (now : Nat) {s : State} (h : 0 ≤ s.rt.fps) : 0 ≤ (recordFrame now s).rt.fps := by
  unfold recordFrame
  split
  · exact le_max_left ..
  · exact countFrame_fps_nonneg _ _ h

theorem recordAcceptance_fps_nonneg {s : State} (h : 0 ≤ s.rt.fps) : 0 ≤ (recordAcceptance s).rt.fps := by
  unfold recordAcceptance
  split
  · exact recordFrame_fps_nonneg _ h
  · exact h

/-! ## What the invariant survives (R35) -/

/-- The candidate `SYNC` accepts is a valid frame (R83, R145). -/
theorem validAccept_window {acc : List Byte} {k : Nat} (hf : findHeader acc = some k) (hk : k + 26 ≤ acc.length)
    (hc : crcOk (window acc k) = true) :
    ValidAccept { frame := window acc k, channels := unpackChannels (window acc k) } where
  length := length_window hk
  header := by
    have hat : headerAt acc k = true := (headerAt_iff acc k).2 ((findHeader_eq_some_iff acc k).1 hf).1
    have hread : memRead acc k 3 = protocol.header := beq_iff_eq.1 hat
    rw [List.take_take]
    exact hread
  crc := hc
  channels := rfl

theorem Sound.addTail {s : State} (h : Sound s) {bs : List Byte}
    (hc : capAdmits s.params (s.acc.length + bs.length) = true) : Sound (addTail bs s) :=
  { h with capacity := by simpa [capAdmits_iff] using hc }

theorem Sound.answer {s : State} (h : Sound s) (r : Result) : Sound (answer r s) :=
  { h with }

theorem Sound.resetState {s : State} (h : Sound s) : Sound (resetState s) :=
  (resetState_atReset s).sound (fun hrt => by simpa [show s.params.hasRateTracker = false from hrt] using h.fps) h.schedule

/-- What SLIDE and REJECT do: bytes leave the head (R144, R146). -/
theorem Sound.drop {s : State} (h : Sound s) (n : Nat) : Sound { s with acc := s.acc.drop n, phase := .searching } :=
  { h with
    phase := rfl
    capacity := fun c hc => by
      have := h.capacity c hc
      simp only [List.length_drop]
      omega }

/-- What ACCEPT does with a valid frame (R145). -/
theorem Sound.accept {s : State} (h : Sound s) (n : Nat) {a : Accept} (ha : ValidAccept a) :
    Sound { s with
      acc := s.acc.drop n, ch := a.channels, phase := .searching, hist := s.hist ++ [a],
      rt := (recordAcceptance s).rt, rtDraws := (recordAcceptance s).rtDraws } :=
  { h.drop n with
    hist := by
      intro b hb
      rcases List.mem_append.1 hb with hb | hb
      · exact h.hist b hb
      · rwa [List.mem_singleton.1 hb]
    published := by
      intro b hb
      obtain rfl : a = b := by simpa using hb
      rfl
    fps := recordAcceptance_fps_nonneg h.fps }

theorem Sound.afterDecision {s : State} (h : Sound s) : Sound (afterDecision (syncDecision s.acc) s) := by
  rcases afterDecision_cases s with
    ⟨-, -, ht⟩ | ⟨-, -, -, ht⟩ | ⟨k, hf, hk, hc, -, ht⟩ | ⟨k, -, -, -, -, ht⟩ <;> rw [ht]
  · exact h
  · exact h.drop 1
  · exact h.accept (k + 26) (validAccept_window hf hk hc)
  · exact h.drop (k + 1)

theorem Sound.exec {i : Instr} {s t : State} (h : Sound s) (hi : i.disciplined = true) (ht : exec i s = .next t) :
    Sound t := by
  refine exec_preserves (Inv := Sound) hi ?append ?iterate ?hand ?reset h ht
  case append => exact fun bs u hu _ hc => hu.addTail hc
  case iterate => exact fun u hu _ => hu.afterDecision
  case hand => exact fun r u hu => hu.answer r
  case reset => exact fun _ => h.resetState

/-! ## The step (R61) -/

/-- The only instruction the decoder reads is the frame row, which is the worker's own. -/
theorem disciplined_of_fetch {acc : List Byte} {i : Instr} (h : fetch acc = some i) : i.disciplined = true := by
  unfold fetch at h
  split at h
  · next j rest hd =>
    cases h
    unfold decode at hd
    split_ifs at hd
    cases hd
    rfl
  · cases h

theorem Sound.disciplined_nextOp {s : State} (h : Sound s) : (nextOp s).disciplined = true := by
  unfold nextOp
  split
  · next e rest hs => exact h.schedule e (by simp [hs])
  · cases hf : fetch s.acc with
    | none => rfl
    | some i => exact disciplined_of_fetch hf

theorem Sound.takeEvent {s : State} (h : Sound s) : Sound (takeEvent s) := by
  unfold Machine.takeEvent
  split
  · next e rest hs => exact { h with schedule := fun e' he' => h.schedule e' (by simp [hs, he']) }
  · exact h

/-- Settles O48: a sound state takes a disciplined operation off its schedule, and `Sound` is kept by each. -/
theorem everyStepKeepsSound : Obligations.EveryStepKeepsSound :=
  fun _ _ h ht => h.takeEvent.exec h.disciplined_nextOp ht

/-! ## What changes on an acceptance only (R22, R30, R32) -/

/-- No acceptance between `s` and `t`: the history, the channels and the rate tracker stay. -/
structure NoAcceptance (s t : State) : Prop where
  hist : t.hist = s.hist
  ch : t.ch = s.ch
  rt : t.rt = s.rt

/-- Acceptances between `s` and `t`, the latest one of `a`. -/
structure LatestAcceptance (s t : State) (a : Accept) : Prop where
  hist : ∃ as, t.hist = s.hist ++ as ++ [a]
  ch : t.ch = a.channels

/-- Between `s` and `t` nothing but acceptances wrote `HIST`, `CH` or `RT` (R22, R30, R32). -/
def AcceptancesOnly (s t : State) : Prop :=
  NoAcceptance s t ∨ ∃ a, LatestAcceptance s t a

theorem NoAcceptance.refl (s : State) : NoAcceptance s s := ⟨rfl, rfl, rfl⟩

theorem LatestAcceptance.hist_ne {s t : State} {a : Accept} (h : LatestAcceptance s t a) : t.hist ≠ s.hist := by
  obtain ⟨as, hh⟩ := h.hist
  simp [hh]

theorem AcceptancesOnly.trans_noAcceptance {s t u : State} (hst : AcceptancesOnly s t) (htu : NoAcceptance t u) :
    AcceptancesOnly s u := by
  obtain h | ⟨a, ⟨as, hh⟩, hch⟩ := hst
  · exact .inl ⟨htu.hist.trans h.hist, htu.ch.trans h.ch, htu.rt.trans h.rt⟩
  · exact .inr ⟨a, ⟨as, htu.hist.trans hh⟩, htu.ch.trans hch⟩

/-- A further acceptance makes the latest one of its own. -/
theorem AcceptancesOnly.trans_acceptance {s t u : State} {a : Accept} (hst : AcceptancesOnly s t)
    (hhist : u.hist = t.hist ++ [a]) (hch : u.ch = a.channels) : AcceptancesOnly s u := by
  obtain h | ⟨b, ⟨as, hh⟩, -⟩ := hst
  · exact .inr ⟨a, ⟨[], by simp [hhist, h.hist]⟩, hch⟩
  · exact .inr ⟨a, ⟨as ++ [b], by simp [hhist, hh]⟩, hch⟩

/-- One iteration of `SYNC`: ACCEPT adds an acceptance, the other outcomes none. -/
theorem AcceptancesOnly.trans_afterDecision {s t : State} (h : AcceptancesOnly s t) :
    AcceptancesOnly s (afterDecision (syncDecision t.acc) t) := by
  rcases afterDecision_cases t with
    ⟨-, -, ht⟩ | ⟨-, -, -, ht⟩ | ⟨k, -, -, -, -, ht⟩ | ⟨k, -, -, -, -, ht⟩ <;> rw [ht]
  · exact h
  · exact h.trans_noAcceptance ⟨rfl, rfl, rfl⟩
  · exact h.trans_acceptance rfl rfl
  · exact h.trans_noAcceptance ⟨rfl, rfl, rfl⟩

theorem exec_acceptancesOnly_of_disciplined {i : Instr} {s t : State} (hi : i.disciplined = true) (hr : i ≠ .reset)
    (h : exec i s = .next t) : AcceptancesOnly s t := by
  refine exec_preserves (Inv := AcceptancesOnly s) hi ?append ?iterate ?hand ?reset (.inl (.refl s)) h
  case append => exact fun bs u hu _ _ => hu.trans_noAcceptance ⟨rfl, rfl, rfl⟩
  case iterate => exact fun u hu _ => hu.trans_afterDecision
  case hand => exact fun r u hu => hu.trans_noAcceptance ⟨rfl, rfl, rfl⟩
  case reset => exact fun h => absurd h hr

theorem execDiscard_noAcceptance {n : Nat} {s t : State} (h : execDiscard n s = .next t) : NoAcceptance s t := by
  obtain ⟨-, rfl | rfl⟩ := execDiscard_next h <;> exact ⟨rfl, rfl, rfl⟩

theorem execDecode_noAcceptance {f : List Byte} {s t : State} (h : execDecode f s = .next t) : NoAcceptance s t := by
  obtain ⟨-, rfl⟩ | ⟨-, -, rfl⟩ := execDecode_next h <;> exact ⟨rfl, rfl, rfl⟩

/-- The two operations the worker performs inside `SYNC` only and that write neither `CH` nor `RT` need no exception. -/
theorem exec_acceptancesOnly {i : Instr} {s t : State} (hr : i ≠ .reset) (hp : ∀ v, i ≠ .publish v)
    (hrec : ∀ now, i ≠ .recordFrame now) (h : exec i s = .next t) : AcceptancesOnly s t := by
  by_cases hi : i.disciplined = true
  · exact exec_acceptancesOnly_of_disciplined hi hr h
  cases i with
  | discard n => exact .inl (execDiscard_noAcceptance h)
  | decode f => exact .inl (execDecode_noAcceptance h)
  | publish v => exact absurd rfl (hp v)
  | recordFrame now => exact absurd rfl (hrec now)
  | _ => exact absurd rfl hi

/-- Settles O44: an acceptance extends `HIST`, and a direct `PUBLISH` writes `CH` only. -/
theorem rateTrackerChangesOnAcceptanceOnly : Obligations.RateTrackerChangesOnAcceptanceOnly := by
  intro i s t hr hrec h hh
  by_cases hp : ∃ v, i = .publish v
  · obtain ⟨v, rfl⟩ := hp
    obtain ⟨-, rfl⟩ := execPublish_next h
    rfl
  · obtain hno | ⟨a, ha⟩ := exec_acceptancesOnly hr (not_exists.1 hp) hrec h
    · exact hno.rt
    · exact absurd hh ha.hist_ne

/-- The growth of `HIST` and the contents of `CH` as R22 and R32 put them. -/
theorem AcceptancesOnly.channels {s t : State} (h : AcceptancesOnly s t) :
    s.hist <+: t.hist ∧ (t.hist = s.hist → t.ch = s.ch) ∧
      (t.hist ≠ s.hist → ∃ a, t.hist.getLast? = some a ∧ t.ch = a.channels) := by
  obtain hno | ⟨a, ha⟩ := h
  · exact ⟨by rw [hno.hist], fun _ => hno.ch, fun hne => absurd hno.hist hne⟩
  · obtain ⟨as, hh⟩ := ha.hist
    exact ⟨⟨as ++ [a], by simp [hh]⟩, fun heq => absurd heq ha.hist_ne, fun _ => ⟨a, by simp [hh], ha.ch⟩⟩

/-- Settles O51: `CH` and `HIST` change together on an acceptance, and a direct `RECORD_FRAME` writes neither. -/
theorem channelsChangeOnAcceptanceOnly : Obligations.ChannelsChangeOnAcceptanceOnly := by
  intro i s t hr hp h
  by_cases hrec : ∃ now, i = .recordFrame now
  · obtain ⟨now, rfl⟩ := hrec
    obtain ⟨-, -, rfl⟩ := execRecordFrame_next h
    simp
  · exact (exec_acceptancesOnly hr hp (not_exists.1 hrec) h).channels

end Sys2Proof

/-! Chunking and interleaving (20_memory.md R63, 70_reset_and_hazards.md R236): a run of `APPEND`s and `SYNC`s drains to what
one `APPEND` of all its bytes drains to, because an iteration already taken is one the closing `DRAIN` would take too. Runs
at differing times reduce to that: without the rate tracker the port `now` is not looked at. -/

namespace Sys2Proof.Machine

/-! ## What `DRAIN` keeps, and how it meets the other updates -/

@[simp] theorem addTail_nil (s : State) : addTail [] s = s := by
  simp [addTail]

@[simp] theorem addTail_addTail (bs cs : List Byte) (s : State) :
    addTail cs (addTail bs s) = addTail (bs ++ cs) s := by
  simp [addTail]

@[simp] theorem answer_answer (r q : Result) (s : State) : answer q (answer r s) = answer q s := rfl

theorem drainState_params {s : State} (hf : s.fault = .none) : (drainState s).params = s.params :=
  drainState_preserves (Inv := fun t => t.params = s.params)
    (fun t ht _ => (sameInputs_afterDecision t).1.trans ht) hf rfl

/-- An iteration taken before a `DRAIN` is one of its own. -/
theorem drainState_afterDecision {s : State} (hf : s.fault = .none) :
    drainState (afterDecision (syncDecision s.acc) s) = drainState s := by
  by_cases h : s.acc.length < 26
  · rw [syncDecision_eq_wait_iff.2 h, afterDecision_wait]
  · exact (drainState_step hf (by omega)).symm

/-- An iteration taken before bytes arrive changes nothing once all is drained (R63). -/
theorem drainState_addTail_afterDecision (bs : List Byte) {s : State} (hf : s.fault = .none) :
    drainState (addTail bs (afterDecision (syncDecision s.acc) s)) = drainState (addTail bs s) := by
  have hf' : (afterDecision (syncDecision s.acc) s).fault = .none := by rw [afterDecision_fault, hf]
  calc drainState (addTail bs (afterDecision (syncDecision s.acc) s))
      = drainState (addTail bs (drainState (afterDecision (syncDecision s.acc) s))) :=
        (drainState_addTail_drainState bs _ hf').symm
    _ = drainState (addTail bs (drainState s)) := by rw [drainState_afterDecision hf]
    _ = drainState (addTail bs s) := drainState_addTail_drainState bs s hf

/-! ## Runs of `APPEND`s and `SYNC`s -/

/-- A run goes on from the next state of its first operation. -/
theorem execAll_cons_eq_next_iff {i : Instr} {is : List Instr} {s t : State} :
    execAll (i :: is) s = .next t ↔ ∃ u, exec i s = .next u ∧ execAll is u = .next t := by
  rw [execAll]
  cases exec i s <;> simp

theorem execAll_append_eq_next_iff {is js : List Instr} {s t : State} :
    execAll (is ++ js) s = .next t ↔ ∃ u, execAll is s = .next u ∧ execAll js u = .next t := by
  induction is generalizing s with
  | nil => simp [execAll]
  | cons i is ih =>
    simp only [List.cons_append, execAll_cons_eq_next_iff, ih]
    tauto

/-- What an `APPEND` or a `SYNC` of a run can do: bytes arrive, or one iteration is taken. -/
theorem exec_appendOrSync_next {i : Instr} {s u : State} (hi : i.appendOrSync = true) (hf : s.fault = .none)
    (h : exec i s = .next u) :
    (∃ bs, i = .append bs ∧ u = addTail bs s) ∨
      ∃ r, i = .sync ∧ u = answer r (afterDecision (syncDecision s.acc) s) := by
  cases i with
  | append bs => exact .inl ⟨bs, rfl, (appendBytes_eq_next_iff.1 h).2.2⟩
  | sync =>
    rw [exec, execSync_of_running hf] at h
    cases h
    exact .inr ⟨_, rfl, rfl⟩
  | _ => cases hi

/-- Whatever the chunks and the iterations in between, a run drains to what one `APPEND` of its bytes drains to, but for the
value handed over last. -/
theorem drainState_of_execAll {ops : List Instr} (hops : ∀ i ∈ ops, i.appendOrSync = true) {s u : State}
    (hf : s.fault = .none) (h : execAll ops s = .next u) (r : Result) :
    u.fault = .none ∧ answer r (drainState u) = answer r (drainState (addTail (appendedBytes ops) s)) := by
  induction ops generalizing s with
  | nil => cases h; simp [hf, appendedBytes]
  | cons i is ih =>
    obtain ⟨v, hv, hu⟩ := execAll_cons_eq_next_iff.1 h
    obtain ⟨hi, his⟩ := List.forall_mem_cons.1 hops
    obtain ⟨bs, rfl, rfl⟩ | ⟨q, rfl, rfl⟩ := exec_appendOrSync_next hi hf hv
    · simpa [appendedBytes] using ih his (s := addTail bs s) hf hu
    · have hfa : (afterDecision (syncDecision s.acc) s).fault = .none := by rw [afterDecision_fault, hf]
      obtain ⟨hfu, heq⟩ := ih his (s := answer q (afterDecision (syncDecision s.acc) s)) hfa hu
      refine ⟨hfu, heq.trans ?_⟩
      calc answer r (drainState (answer q (addTail (appendedBytes is) (afterDecision (syncDecision s.acc) s))))
          = answer r (drainState (addTail (appendedBytes is) (afterDecision (syncDecision s.acc) s))) := by
            rw [drainState_answer q _ (by simpa using hfa), answer_answer]
        _ = answer r (drainState (addTail (appendedBytes is) s)) := by
            rw [drainState_addTail_afterDecision _ hf]

/-- The same of the run closed by its `DRAIN`. -/
theorem execAll_drain_eq {ops : List Instr} (hops : ∀ i ∈ ops, i.appendOrSync = true) {s t : State}
    (hf : s.fault = .none) (h : execAll (ops ++ [.drain]) s = .next t) (r : Result) :
    answer r t = answer r (drainState (addTail (appendedBytes ops) s)) := by
  obtain ⟨u, hu, hd⟩ := execAll_append_eq_next_iff.1 h
  obtain ⟨hfu, heq⟩ := drainState_of_execAll hops hf hu r
  obtain ⟨v, hv, ht⟩ := execAll_cons_eq_next_iff.1 hd
  rw [exec, execDrain_of_running hfu] at hv
  cases hv
  cases ht
  exact heq

/-- Settles O53: both runs drain to what one `APPEND` of their common bytes drains to. -/
theorem scheduleDoesNotMatter : Obligations.ScheduleDoesNotMatter := by
  intro s t t' ops ops' hf hops hops' hbytes ht ht'
  calc t' = answer t'.result (drainState (addTail (appendedBytes ops') s)) := execAll_drain_eq hops' hf ht' t'.result
    _ = answer t'.result (drainState (addTail (appendedBytes ops) s)) := by rw [hbytes]
    _ = answer t'.result t := (execAll_drain_eq hops hf ht t'.result).symm

/-! ## Byte by byte (R236) -/

/-- From a quiescent state without a capacity, draining after each byte comes to draining after all of them. -/
theorem pushAndDrainEach_eq {bs : List Byte} {s : State} (hf : s.fault = .none) (hc : s.params.accCap = none)
    (hq : Quiescent s) : pushAndDrainEach bs s = .next (drainState (addTail bs s)) := by
  induction bs generalizing s with
  | nil => rw [addTail_nil, drainState_of_short hq]; rfl
  | cons b bs ih =>
    have happ : appendBytes [b] s = .next (addTail [b] s) :=
      appendBytes_eq_next_iff.2 ⟨hf, by simp [capAdmits_iff, hc], rfl⟩
    have hfb : (addTail [b] s).fault = .none := hf
    obtain ⟨hqd, hfd⟩ := drainState_spec _ hfb
    have hcd : (drainState (addTail [b] s)).params.accCap = none := by rw [drainState_params hfb]; exact hc
    rw [pushAndDrainEach, happ]
    simp only [ih hfd hcd hqd, drainState_addTail_drainState bs _ hfb, addTail_addTail, List.singleton_append]

/-- Settles O54: both drain the state with all the bytes at its tail. -/
theorem byteSerialFeedIsChunkedFeed : Obligations.ByteSerialFeedIsChunkedFeed := by
  intro s bs hf hc hq
  rw [exec, exec, execFeed1, pushAndDrainEach_eq hf hc hq, execFeed_of_running hf (by simp [capAdmits_iff, hc])]

/-! ## Runs at differing times: the block without its rate tracker (44_rate_tracker.md R190) -/

theorem recordAcceptance_withoutRateTracker (s : State) :
    recordAcceptance (withoutRateTracker s) = withoutRateTracker s := rfl

/-- An iteration does to the rest of the block what it does without the rate tracker. -/
theorem afterDecision_withoutRateTracker (s : State) :
    afterDecision (syncDecision s.acc) (withoutRateTracker s) =
      withoutRateTracker (afterDecision (syncDecision s.acc) s) := by
  rcases afterDecision_cases s with ⟨-, hd, h⟩ | ⟨hl, hd, -, h⟩ | ⟨k, -, hk, -, hd, h⟩ | ⟨k, -, hk, -, hd, h⟩ <;>
    rw [h, hd]
  · rfl
  · rw [afterDecision_slide (s := withoutRateTracker s) (show 1 ≤ s.acc.length by omega)]; rfl
  · rw [afterDecision_accept (s := withoutRateTracker s) (length_window hk) hk, recordAcceptance_withoutRateTracker]; rfl
  · rw [afterDecision_reject (s := withoutRateTracker s) (show k + 1 ≤ s.acc.length by omega)]; rfl

theorem drainState_withoutRateTracker (s : State) (hf : s.fault = .none) :
    drainState (withoutRateTracker s) = withoutRateTracker (drainState s) := by
  refine drain_induction (P := fun s => drainState (withoutRateTracker s) = withoutRateTracker (drainState s))
    ?short ?step s hf
  case short => exact fun s _ h => by rw [drainState_of_short h, drainState_of_short (s := withoutRateTracker s) h]
  case step =>
    intro s hf h ih
    calc drainState (withoutRateTracker s)
        = drainState (afterDecision (syncDecision s.acc) (withoutRateTracker s)) :=
          drainState_step (s := withoutRateTracker s) hf h
      _ = withoutRateTracker (drainState s) := by
          rw [afterDecision_withoutRateTracker, ih, ← drainState_step hf h]

theorem mapNext_whenRunning (f : State → State) (s : State) (k : Host.Outcome State Fault Refusal) :
    mapNext f (whenRunning s k) = whenRunning s (mapNext f k) := by
  unfold whenRunning; split <;> rfl

theorem appendBytes_withoutRateTracker (bs : List Byte) (s : State) :
    appendBytes bs (withoutRateTracker s) = mapNext withoutRateTracker (appendBytes bs s) := by
  rw [appendBytes, appendBytes, mapNext_whenRunning, apply_ite (mapNext withoutRateTracker)]; rfl

theorem execSync_withoutRateTracker (s : State) :
    execSync (withoutRateTracker s) = mapNext withoutRateTracker (execSync s) := by
  have hd : performDecision (syncDecision s.acc) (withoutRateTracker s) =
      withoutRateTracker (performDecision (syncDecision s.acc) s) := by
    rw [performDecision_syncDecision]
    exact (performDecision_syncDecision (withoutRateTracker s)).trans
      (congrArg (answer _) (afterDecision_withoutRateTracker s))
  rw [execSync, execSync, mapNext_whenRunning, mapNext, ← hd]; rfl

theorem execDrain_withoutRateTracker (s : State) :
    execDrain (withoutRateTracker s) = mapNext withoutRateTracker (execDrain s) := by
  by_cases hf : s.fault = .none
  · rw [execDrain_of_running hf, execDrain_of_running (s := withoutRateTracker s) hf,
      drainState_withoutRateTracker s hf, mapNext]
  · have hstop : ∀ k, whenRunning s k = .fault .stoppedByFault := fun k => if_neg hf
    rw [execDrain, execDrain, hstop]; exact hstop _

/-- An `APPEND`, a `SYNC` or a `DRAIN` does to the rest of the block what it does without the rate tracker. -/
theorem exec_withoutRateTracker {i : Instr} (hi : i.appendOrSync = true ∨ i = .drain) (s : State) :
    exec i (withoutRateTracker s) = mapNext withoutRateTracker (exec i s) := by
  obtain hi | rfl := hi
  · cases i with
    | append bs => exact appendBytes_withoutRateTracker bs s
    | sync => exact execSync_withoutRateTracker s
    | _ => cases hi
  · exact execDrain_withoutRateTracker s

/-- Without the rate tracker the times of a run do not matter. -/
theorem execAt_withoutRateTracker {es : List Event} (hes : ∀ e ∈ es, e.op.appendOrSync = true ∨ e.op = .drain)
    (s : State) : mapNext withoutRateTracker (execAt es s) = execAll (es.map Event.op) (withoutRateTracker s) := by
  induction es generalizing s with
  | nil => rfl
  | cons e es ih =>
    obtain ⟨he, hes⟩ := List.forall_mem_cons.1 hes
    have hstep : exec e.op (withoutRateTracker s) = mapNext withoutRateTracker (exec e.op { s with now := e.now }) :=
      exec_withoutRateTracker he { s with now := e.now }
    rw [execAt, List.map_cons, execAll, hstep]
    cases exec e.op { s with now := e.now } with
    | next u => exact ih hes u
    | fault r => rfl
    | refused r => rfl

/-- A run closed by its `DRAIN`, each operation at its own time, is a run at one time of the block without the rate tracker. -/
theorem execAll_of_execAt_drain {es : List Event} (hes : ∀ e ∈ es, e.op.appendOrSync = true) {now : Nat} {s t : State}
    (h : execAt (es ++ [{ now := now, op := .drain }]) s = .next t) :
    execAll (es.map Event.op ++ [.drain]) (withoutRateTracker s) = .next (withoutRateTracker t) := by
  have hops : ∀ e ∈ es ++ [{ now := now, op := .drain }], e.op.appendOrSync = true ∨ e.op = .drain :=
    List.forall_mem_append.2 ⟨fun e he => .inl (hes e he), by simp⟩
  simpa [h, mapNext] using (execAt_withoutRateTracker hops s).symm

/-- Settles O60: `ScheduleDoesNotMatter` for the block without its rate tracker, the only part that looks at the time. -/
theorem scheduleDoesNotMatterAtAnyTimes : Obligations.ScheduleDoesNotMatterAtAnyTimes := by
  intro s t t' es es' now now' hf hes hes' hbytes ht ht'
  have key : withoutRateTracker t' = { withoutRateTracker t with result := t'.result } :=
    scheduleDoesNotMatter (withoutRateTracker s) _ _ _ _ hf (List.forall_mem_map.2 hes) (List.forall_mem_map.2 hes')
      hbytes (execAll_of_execAt_drain hes ht) (execAll_of_execAt_drain hes' ht')
  obtain ⟨hacc, hch, hphase, hfault, -, hhist, -⟩ := State.mk.inj key
  exact ⟨hhist, hacc, hch, hphase, hfault⟩

/-! ## The channel reads and the schedule (R52, R62, R61) -/

theorem execDecode_of_length {f : List Byte} (h : f.length = 26) (s : State) :
    execDecode f s = .next (answer (.channels (unpackChannels f)) s) := by
  simp [execDecode, decodeFrame, h]

/-- Settles O37: the lanes of the unpacker take the stream bits. -/
theorem decodeTakesTheStreamBits : Obligations.DecodeTakesTheStreamBits :=
  fun s f hl => ⟨unpackChannels f, execDecode_of_length hl s, fun i j hi hj => getLsbD_unpackChannels f i hi j hj⟩

/-- Settles O50: `CH` holds the channels of the latest acceptance, and those are its frame's. -/
theorem snapShowsTheLatestAcceptedFrame : Obligations.SnapShowsTheLatestAcceptedFrame := by
  intro s a hs ha
  have hch : s.ch = unpackChannels a.frame :=
    (hs.published a ha).trans (hs.hist a (List.mem_of_getLast? ha)).channels
  rw [← hch]; rfl

theorem nextOp_of_cons {s : State} {e : Event} {rest : List Event} (h : s.schedule = e :: rest) : nextOp s = e.op := by
  simp [nextOp, h]

theorem takeEvent_of_cons {s : State} {e : Event} {rest : List Event} (h : s.schedule = e :: rest) :
    takeEvent s = { s with schedule := rest, now := e.now } := by
  simp [takeEvent, h]

/-- Settles O57: the step takes the event and performs its operation. -/
theorem stepRunsTheScheduledOperation : Obligations.StepRunsTheScheduledOperation := by
  intro s e rest h
  rw [step, nextOp_of_cons h, takeEvent_of_cons h]

end Sys2Proof.Machine

/-! Encodings (30_encoding.md): the decoder's three answers, the frame row as an iteration of `SYNC`, `PACK` and the 176-bit
number of R94, and the expansions of `FEED` and `FEED1` (R92). -/

namespace Sys2Proof.Machine

/-! ## What the decoder answers (R81, R87, R90) -/

theorem startsWithHeader_iff_headerOccurs (bs : List Byte) : startsWithHeader bs = true ↔ HeaderOccurs bs 0 := by
  rw [startsWithHeader_iff, ← headerAt_iff, headerAt, beq_iff_eq]; rfl

theorem decode_of_short {bs : List Byte} (h : bs.length < 26) : decode bs = .error .tooShort :=
  if_pos h

theorem decode_of_not_headerOccurs {bs : List Byte} (hl : 26 ≤ bs.length) (hh : ¬ HeaderOccurs bs 0) :
    decode bs = .error .noHeader := by
  rw [decode, if_neg (Nat.not_lt.2 hl), if_neg (mt (startsWithHeader_iff_headerOccurs bs).1 hh)]

theorem decode_of_headerOccurs {bs : List Byte} (hl : 26 ≤ bs.length) (hh : HeaderOccurs bs 0) :
    decode bs = .ok (.frameRc16 (unpackChannels bs) (bs.getD 25 0), bs.drop 26) := by
  rw [decode, if_neg (Nat.not_lt.2 hl), if_pos ((startsWithHeader_iff_headerOccurs bs).2 hh)]

/-- Bytes decode to one instruction only: the frame at their head. -/
theorem decode_eq_ok_iff {bs rest : List Byte} {i : Instr} :
    decode bs = .ok (i, rest) ↔ 26 ≤ bs.length ∧ HeaderOccurs bs 0 ∧
      i = .frameRc16 (unpackChannels bs) (bs.getD 25 0) ∧ rest = bs.drop 26 := by
  by_cases hl : bs.length < 26
  · simp [decode_of_short hl, Nat.not_le.2 hl]
  by_cases hh : HeaderOccurs bs 0
  · rw [decode_of_headerOccurs (Nat.not_lt.1 hl) hh, Except.ok.injEq, Prod.mk.injEq]
    exact ⟨fun ⟨hi, hr⟩ => ⟨Nat.not_lt.1 hl, hh, hi.symm, hr.symm⟩, fun ⟨_, _, hi, hr⟩ => ⟨hi.symm, hr.symm⟩⟩
  · rw [decode_of_not_headerOccurs (Nat.not_lt.1 hl) hh]
    exact ⟨nofun, fun ⟨_, hh', _⟩ => absurd hh' hh⟩

/-- Settles O6: the three answers of the decoder; byte 25 is within the 26 bytes. -/
theorem decodeRecognisesTheHeaderOnly : Obligations.DecodeRecognisesTheHeaderOnly := by
  refine fun bs => ⟨decode_of_short, decode_of_not_headerOccurs, fun hl hh => ⟨_, _, decode_of_headerOccurs hl hh, ?_⟩⟩
  rw [List.getElem?_eq_getElem (by omega), List.getD_eq_getElem _ _ (by omega)]

/-! ## Decoding and encoding undo each other (R80, R82) -/

theorem getD_frameBytes_append_crc (ch : ChannelSet) (crc : Byte) (rest : List Byte) :
    (frameBytes ch crc ++ rest).getD 25 0 = crc := by
  rw [List.getD_eq_getElem?_getD, List.getElem?_append_left (by simp [length_frameBytes]), getElem?_frameBytes_crc]; rfl

theorem decode_frameBytes_append (ch : ChannelSet) (crc : Byte) (rest : List Byte) :
    decode (frameBytes ch crc ++ rest) = .ok (.frameRc16 ch crc, rest) := by
  rw [decode_of_headerOccurs (by simp [length_frameBytes]) (headerOccurs_frameBytes ch crc rest),
    unpackChannels_frameBytes_append, getD_frameBytes_append_crc, drop_frameBytes_append]

/-- Only the frame row has an encoding (R87). -/
theorem encode_eq_some_iff {i : Instr} {bs : List Byte} :
    encode i = some bs ↔ ∃ ch crc, i = .frameRc16 ch crc ∧ bs = frameBytes ch crc := by
  cases i with
  | frameRc16 ch crc => simp [encode, eq_comm]
  | _ => exact ⟨nofun, nofun⟩

/-- Settles O4: an encoded instruction is a frame, and its fields come back. -/
theorem decodeOfEncodeIsTheInstruction : Obligations.DecodeOfEncodeIsTheInstruction := by
  intro i bs rest h
  obtain ⟨ch, crc, rfl, rfl⟩ := encode_eq_some_iff.1 h
  exact decode_frameBytes_append ch crc rest

/-- Settles O5: the frame built from the fields read is the first 26 bytes. -/
theorem encodeOfDecodeIsTheBytes : Obligations.EncodeOfDecodeIsTheBytes := by
  intro bs rest i h
  obtain ⟨hl, hh, rfl, rfl⟩ := decode_eq_ok_iff.1 h
  have hheader : bs.take 3 = protocol.header :=
    (startsWithHeader_iff bs).1 ((startsWithHeader_iff_headerOccurs bs).2 hh)
  refine ⟨bs.take 26, ?_, (List.take_append_drop 26 bs).symm⟩
  exact congrArg some (frameBytes_unpackChannels hl hheader)

/-- Settles O7: the decoder evaluated on the three frames. -/
theorem namedFramesDecode : Obligations.NamedFramesDecode :=
  ⟨rfl, rfl, rfl⟩

/-! ## `PACK` (R94) -/

theorem length_packFrame (v : ChannelSet) : (packFrame v).length = 26 := length_frameBytes ..

/-- The frame `PACK` builds is valid (R83, R94). -/
theorem validFrame_packFrame (v : ChannelSet) : ValidFrame (packFrame v) := by
  refine ⟨length_packFrame v, ?_, (crcOk_frameBytes_iff v (frameCrc v)).2 rfl⟩
  simpa [packFrame] using headerOccurs_frameBytes v (frameCrc v) []

/-- The recursion for the number of R94 is its sum. -/
theorem packBits_ofFn {n : Nat} (c : Fin n → Chan) :
    packBits (List.ofFn c) = ∑ i, (c i).toNat <<< (11 * i.val) := by
  induction n with
  | zero => rfl
  | succ n ih =>
    have hshift : ∀ i : Fin n, (c i.succ).toNat <<< (11 * i.succ.val) =
        ((c i.succ).toNat <<< (11 * i.val)) * 2 ^ 11 := by
      intro i; simp only [Nat.shiftLeft_eq, Fin.val_succ]; ring
    rw [List.ofFn_succ, packBits, ih, Fin.sum_univ_succ, Nat.shiftLeft_eq _ protocol.chBits, Finset.sum_mul]
    simp only [hshift]; rfl

theorem packBits_toList (v : ChannelSet) : packBits v.toList = ∑ i : Fin 16, v[i].toNat <<< (11 * i.val) := by
  have hv : v.toList = List.ofFn fun i : Fin 16 => v[i] :=
    List.ext_getElem (by simp) fun k _ _ => by rw [List.getElem_ofFn]; rfl
  rw [hv, packBits_ofFn]

/-- Settles O10: the bytes of the region are those of the sum. -/
theorem packBuildsAValidFrame : Obligations.PackBuildsAValidFrame := by
  refine fun s v => ⟨packFrame v, rfl, validFrame_packFrame v, fun k hk => ?_⟩
  rw [packFrame, getElem?_frameBytes_region v _ hk, packBits_toList]

/-- Settles O11: the frame of `PACK` has the length `DECODE` asks for, and its lanes are the channels packed. -/
theorem decodeInvertsPack : Obligations.DecodeInvertsPack := by
  refine fun s v => ⟨packFrame v, rfl, ?_⟩
  rw [exec, execDecode_of_length (length_packFrame v), packFrame, unpackChannels_frameBytes]; rfl

/-! ## The frame row and the step that performs it (R83, R145, R146, R149) -/

/-- What an iteration decides where a frame stands at the head: its CRC byte is right, or it is not. -/
theorem syncDecision_frameBytes_append (ch : ChannelSet) (crc : Byte) (rest : List Byte) :
    syncDecision (frameBytes ch crc ++ rest) =
      if crc = frameCrc ch then .accept 0 (frameBytes ch crc) else .reject 0 := by
  have hfind := findHeader_of_headerOccurs_zero (headerOccurs_frameBytes ch crc rest)
  have hwindow : window (frameBytes ch crc ++ rest) 0 = frameBytes ch crc := take_frameBytes_append ch crc rest
  rw [syncDecision_of_complete hfind (by simp [length_frameBytes]), hwindow]
  simp only [crcOk_frameBytes_iff]

/-- The frame row at its frame is `SYNC` (notes/assumptions 11). -/
theorem execFrameRc16_of_frame_at_head {s : State} {ch : ChannelSet} {crc : Byte} {rest : List Byte}
    (hacc : s.acc = frameBytes ch crc ++ rest) : execFrameRc16 ch crc s = execSync s := by
  rw [execFrameRc16_eq, if_pos]
  rw [hacc]; exact take_frameBytes_append ch crc rest

theorem execSync_of_valid_frame_at_head {s : State} {ch : ChannelSet} {rest : List Byte} (hf : s.fault = .none)
    (hacc : s.acc = frameBytes ch (frameCrc ch) ++ rest) :
    execSync s = .next
      { s with
        acc := rest, ch := ch, phase := .searching,
        hist := s.hist ++ [{ frame := frameBytes ch (frameCrc ch), channels := ch }],
        rt := (recordAcceptance s).rt, rtDraws := (recordAcceptance s).rtDraws, result := .outcome .accept } := by
  have hd : syncDecision s.acc = .accept 0 (frameBytes ch (frameCrc ch)) := by
    rw [hacc, syncDecision_frameBytes_append, if_pos rfl]
  have hl : 0 + 26 ≤ s.acc.length := by simp [hacc, length_frameBytes]
  rw [execSync_of_running hf, hd, afterDecision_accept (length_frameBytes ..) hl, unpackChannels_frameBytes, hacc,
    Nat.zero_add, drop_frameBytes_append]
  rfl

theorem execSync_of_invalid_frame_at_head {s : State} {ch : ChannelSet} {crc : Byte} {rest : List Byte}
    (hf : s.fault = .none) (hacc : s.acc = frameBytes ch crc ++ rest) (hcrc : crc ≠ frameCrc ch) :
    execSync s = .next { s with acc := s.acc.drop 1, phase := .searching, result := .outcome .reject } := by
  have hd : syncDecision s.acc = .reject 0 := by rw [hacc, syncDecision_frameBytes_append, if_neg hcrc]
  have hl : 0 + 1 ≤ s.acc.length := by simp [hacc, length_frameBytes]; omega
  rw [execSync_of_running hf, hd, afterDecision_reject hl]
  rfl

/-- Settles O8: the frame row is `SYNC`, which accepts the right CRC byte and rejects any other. -/
theorem frameAtTheHeadIsJudged : Obligations.FrameAtTheHeadIsJudged := by
  intro s ch crc rest hf hacc
  have hsync : exec (.frameRc16 ch crc) s = execSync s := execFrameRc16_of_frame_at_head hacc
  rw [hsync]
  refine ⟨rfl, ?_, execSync_of_invalid_frame_at_head hf hacc⟩
  rintro rfl
  exact ⟨recordAcceptance s, execRecordFrame_port hf, execSync_of_valid_frame_at_head hf hacc⟩

/-- With nothing scheduled, the worker's instruction is the one the decoder reads (R87, R149). -/
theorem nextOp_of_decode {s : State} {i : Instr} {rest : List Byte} (hs : s.schedule = [])
    (hd : decode s.acc = .ok (i, rest)) : nextOp s = i := by
  simp [nextOp, hs, fetch, hd]

theorem takeEvent_of_nil {s : State} (h : s.schedule = []) : takeEvent s = s := by
  simp [takeEvent, h]

/-- Settles O58: there is no event to take, and the decoded frame is performed. -/
theorem stepRunsTheDecodedFrame : Obligations.StepRunsTheDecodedFrame := by
  intro s i rest hs hd
  rw [step, nextOp_of_decode hs hd, takeEvent_of_nil hs]

/-! ## `FEED` and `FEED1` (R92, R148) -/

/-- An append that goes through leaves the block running, so the `DRAIN` after it runs. -/
theorem execDrain_of_appendBytes {bs : List Byte} {s u : State} (h : appendBytes bs s = .next u) :
    exec .drain u = .next (drainState u) := by
  obtain ⟨hf, -, rfl⟩ := appendBytes_eq_next_iff.1 h
  exact execDrain_of_running (s := addTail bs s) hf

theorem execFeed_eq_execAll (bs : List Byte) (s : State) : execFeed bs s = execAll [.append bs, .drain] s := by
  have happend : exec (.append bs) s = appendBytes bs s := rfl
  rw [execFeed, execAll, happend]
  cases h : appendBytes bs s with
  | next u => simp only [execAll, execDrain_of_appendBytes h]
  | fault r => rfl
  | refused r => rfl

theorem pushAndDrainEach_eq_execAll (bs : List Byte) (s : State) :
    pushAndDrainEach bs s = execAll (bs.flatMap fun b => [.push b, .drain]) s := by
  induction bs generalizing s with
  | nil => rfl
  | cons b bs ih =>
    have hpush : exec (.push b) s = appendBytes [b] s := rfl
    rw [pushAndDrainEach, List.flatMap_cons, List.cons_append, execAll, hpush]
    cases h : appendBytes [b] s with
    | next u => simp only [List.cons_append, List.nil_append, execAll, execDrain_of_appendBytes h, ih]
    | fault r => rfl
    | refused r => rfl

/-- Settles O9: both expansions go through the same appends and drains, and stop where these stop. -/
theorem feedIsItsExpansion : Obligations.FeedIsItsExpansion :=
  fun s bs => ⟨execFeed_eq_execAll bs s, pushAndDrainEach_eq_execAll bs s⟩

/-- Settles O56: the append goes through, and `DRAIN` leaves a quiescent state. -/
theorem feedCompletes : Obligations.FeedCompletes := by
  intro s bs hf hc
  have hcap : capAdmits s.params (s.acc.length + bs.length) = true := (capAdmits_iff ..).2 hc
  obtain ⟨hl, hfd⟩ := drainState_spec (addTail bs s) hf
  exact ⟨drainState (addTail bs s), execFeed_of_running hf hcap, execDrain_of_running (s := addTail bs s) hf,
    Nat.le_of_lt_succ hl, hfd⟩

end Sys2Proof.Machine

/-! The CRC checker (40_crc8.md): the ROM is the printed listing, one more byte of a message is one more table entry, the CRC
is linear (R116), the bit-serial checker shifts the same value (R117), and the CRC over offsets 2..25 is zero exactly where
CRCCHK passes (R114), so that one flipped bit of a valid frame spoils its header or its CRC. -/

namespace Sys2Proof.Machine

/-! ## The ROM (R111, R112) -/

theorem crcTable_eq_romListing : crcTable = romListing := by decide +kernel

/-- The listing read at a byte (R111). -/
theorem getElem?_romListing (i : Byte) : romListing[i.toNat]? = some (tableEntry i) := by
  rw [← crcTable_eq_romListing, getElem?_crcTable]

/-- The table is a permutation of the bytes: its entries do not repeat (R111). -/
theorem nodup_crcTable : crcTable.Nodup := by
  refine List.nodup_range.map_on fun i hi j hj h => ?_
  have hij : i % 2 ^ 8 = j % 2 ^ 8 := by simpa using congrArg BitVec.toNat (tableEntry_injective h)
  rw [List.mem_range, protocol_crcTableSize] at hi hj
  omega

/-- Settles O12: the listing is compared once with the computed table; the rest is known of the table. -/
theorem romIsThePrintedTable : Obligations.RomIsThePrintedTable :=
  ⟨crcTable_eq_romListing, getElem?_romListing, crcTable_eq_romListing ▸ length_crcTable,
    crcTable_eq_romListing ▸ nodup_crcTable⟩

/-- Settles O13: the update and the listing give the same table entry. -/
theorem crcUpdateReadsTheRom : Obligations.CrcUpdateReadsTheRom := by
  refine fun s c b => ⟨tableEntry (c ^^^ b), getElem?_romListing (c ^^^ b), ?_⟩
  rw [exec, execCrc8Update, crc8Update_eq]; rfl

/-! ## The CRC of a message (R113) -/

@[simp] theorem tableEntry_zero : tableEntry 0 = 0 := rfl

theorem tableEntry_eq_zero_iff {a : Byte} : tableEntry a = 0 ↔ a = 0 :=
  ⟨tableEntry_eq_zero, fun h => h ▸ tableEntry_zero⟩

theorem crc8_append_singleton (m : List Byte) (b : Byte) : crc8 (m ++ [b]) = tableEntry (crc8 m ^^^ b) := by
  rw [crc8_eq_foldl, List.foldl_append, ← crc8_eq_foldl, List.foldl_cons, List.foldl_nil, crc8Update_eq]

/-- The byte that brings the CRC of a message to zero is its CRC and no other (R113). -/
theorem crc8_append_singleton_eq_zero_iff {m : List Byte} {b : Byte} : crc8 (m ++ [b]) = 0 ↔ crc8 m = b := by
  rw [crc8_append_singleton, tableEntry_eq_zero_iff]
  exact BitVec.xor_eq_zero_iff

theorem crc8_zero_cons (m : List Byte) : crc8 (0 :: m) = crc8 m := by
  have hzero : crc8Update 0 0 = 0 := by rw [crc8Update_eq, BitVec.xor_self]; rfl
  rw [crc8_eq_foldl, List.foldl_cons, hzero, ← crc8_eq_foldl]

theorem crc8_replicate_zero_append (k : Nat) (m : List Byte) : crc8 (List.replicate k 0 ++ m) = crc8 m := by
  induction k with
  | zero => rfl
  | succ k ih => rw [List.replicate_succ, List.cons_append, crc8_zero_cons, ih]

/-- Settles O14: the running value after `m` is `crc8 m`. -/
theorem crcRunsOverTheMessage : Obligations.CrcRunsOverTheMessage := by
  refine fun s => ⟨rfl, fun m => ⟨crc8 m, rfl, fun b => ?_⟩⟩
  rw [exec, execCrc8, crc8_append_singleton]; rfl

/-- Settles O15: the last update reads entry 0, and so does every update by a leading zero byte. -/
theorem crcOfMessageAndCrcIsZero : Obligations.CrcOfMessageAndCrcIsZero :=
  fun m => ⟨crc8_append_singleton_eq_zero_iff.2 rfl, fun k => crc8_replicate_zero_append k m⟩

/-! ## Linearity (R116 (a)) -/

theorem foldl_crc8Update_xorBytes {a b : List Byte} (h : a.length = b.length) (c d : Byte) :
    (xorBytes a b).foldl crc8Update (c ^^^ d) = a.foldl crc8Update c ^^^ b.foldl crc8Update d := by
  induction a generalizing b c d with
  | nil =>
    obtain rfl : b = [] := List.length_eq_zero_iff.1 h.symm
    rfl
  | cons x a ih =>
    cases b with
    | nil => cases h
    | cons y b =>
      rw [xorBytes, List.zipWith_cons_cons, List.foldl_cons, crc8Update_xor]
      exact ih (Nat.succ.inj h) (crc8Update c x) (crc8Update d y)

/-- Settles O16: both runs start at zero, which is the exclusive-or of zero and zero. -/
theorem crcIsLinear : Obligations.CrcIsLinear := by
  intro a b h
  simp only [crc8_eq_foldl]
  exact foldl_crc8Update_xorBytes h 0 0

/-! ## The bit-serial checker (R117) -/

/-- One bit-serial step with the high bit of `b` is one step of the construction with all of `b` already exclusive-ored in:
the bits of `b` still to come are shifted along. -/
theorem crcBit_msb_xor_shiftLeft (c b : Byte) : crcBit c b.msb ^^^ (b <<< 1) = crcShift (c ^^^ b) := by
  rw [crcBit, crcShift, BitVec.msb_xor, BitVec.shiftLeft_xor_distrib]
  by_cases h : (c.msb ^^ b.msb) = true
  · rw [if_pos h, if_pos h]; ac_rfl
  · rw [if_neg h, if_neg h]

/-- The lowest `n` bits of a byte, the highest first, come to `n` steps of the construction. -/
theorem foldl_crcBit_eq_crcShifts (b : Byte) {n : Nat} (hn : n ≤ 8) (c : Byte) :
    (List.range n).reverse.foldl (fun c j => crcBit c (b.getLsbD j)) c = crcShifts n (c ^^^ (b <<< (8 - n))) := by
  induction n generalizing c with
  | zero => simp [crcShifts]
  | succ n ih =>
    have hbit : b.getLsbD n = (b <<< (8 - (n + 1))).msb := by
      have hlt : 8 - (n + 1) < 8 := by omega
      rw [BitVec.msb_shiftLeft, BitVec.getMsbD, decide_eq_true hlt, Bool.true_and,
        show 8 - 1 - (8 - (n + 1)) = n by omega]
    have hshift : b <<< (8 - n) = (b <<< (8 - (n + 1))) <<< 1 := by
      rw [← BitVec.shiftLeft_add, show 8 - (n + 1) + 1 = 8 - n by omega]
    rw [List.range_succ, List.reverse_append, List.reverse_singleton, List.singleton_append, List.foldl_cons,
      ih (by omega), hbit, hshift, crcBit_msb_xor_shiftLeft, crcShifts]

/-- Settles O17: all eight bits of the byte. -/
theorem bitSerialCheckerAgrees : Obligations.BitSerialCheckerAgrees := by
  intro c b
  rw [crc8Update_eq]
  have h := foldl_crcBit_eq_crcShifts b le_rfl c
  rw [Nat.sub_self, BitVec.shiftLeft_zero] at h
  exact h

/-! ## CRCCHK (R114) -/

/-- Offsets 2..25 of a candidate are the covered span and the CRC byte (R59). -/
theorem drop_two_eq_crcSpan_append {f : List Byte} (hl : f.length = 26) : f.drop 2 = crcSpan f ++ [f.getD 25 0] := by
  have hlast : (f.drop 2).drop 23 = [f.getD 25 0] := by
    rw [List.drop_drop, List.drop_eq_getElem_cons (by omega), List.drop_of_length_le (by omega),
      List.getD_eq_getElem _ _ (by omega)]
  rw [crcSpan, ← hlast]
  exact (List.take_append_drop 23 (f.drop 2)).symm

/-- CRCCHK passes exactly where the CRC over offsets 2..25 is zero (R114, from R113). -/
theorem crcOk_iff_crc8_drop_two {f : List Byte} (hl : f.length = 26) : crcOk f = true ↔ crc8 (f.drop 2) = 0 := by
  rw [drop_two_eq_crcSpan_append hl, crc8_append_singleton_eq_zero_iff, crcOk, beq_iff_eq]

/-- The `n` bytes from offset 2 of a candidate, written out. -/
theorem ofFn_eq_take_drop_two (f : Vector Byte 26) {n : Nat} (hn : n ≤ 24) :
    (List.ofFn fun k : Fin n => f[2 + k.val]) = (f.toList.drop 2).take n := by
  refine List.ext_getElem (by simp; omega) fun k _ _ => ?_
  simp

/-- Settles O18: the covered span and its extension by the CRC byte, written out. -/
theorem crcchkComparesTheCoveredSpan : Obligations.CrcchkComparesTheCoveredSpan := by
  intro s f
  have hspan : (List.ofFn fun k : Fin 23 => f[2 + k.val]) = crcSpan f.toList := ofFn_eq_take_drop_two f (by omega)
  have hdrop : (List.ofFn fun k : Fin 24 => f[2 + k.val]) = f.toList.drop 2 := by
    rw [ofFn_eq_take_drop_two f le_rfl, List.take_of_length_le (by simp)]
  have hcrc : f.toList.getD 25 0 = f[25] := by simp
  refine ⟨crcOk f.toList, rfl, ?_, ?_⟩
  · rw [hspan, ← hcrc, crcOk, beq_iff_eq]
  · rw [hdrop]; exact crcOk_iff_crc8_drop_two (by simp)

/-! ## One flipped bit (R116 (c), conflict C6) -/

theorem length_flipBit (bs : List Byte) (k j : Nat) : (flipBit bs k j).length = bs.length :=
  List.length_modify ..

theorem xor_twoPow_ne (b : Byte) {j : Nat} (hj : j < 8) : b ^^^ BitVec.twoPow 8 j ≠ b := by
  intro h
  have hbit := congrArg (·.getLsbD j) h
  simp [hj] at hbit

theorem flipBit_eq_append {bs : List Byte} {k : Nat} (hk : k < bs.length) (j : Nat) :
    flipBit bs k j = bs.take k ++ (bs[k] ^^^ BitVec.twoPow 8 j) :: bs.drop (k + 1) :=
  List.modify_eq_take_cons_drop hk

theorem getElem?_flipBit_ne {bs : List Byte} {k j : Nat} (hk : k < bs.length) (hj : j < 8) :
    (flipBit bs k j)[k]? ≠ bs[k]? := by
  have := xor_twoPow_ne bs[k] hj
  simpa [flipBit, hk] using this

/-- A flipped bit changes the CRC of a message (R116 (c)). -/
theorem crc8_flipBit_ne {m : List Byte} {k j : Nat} (hk : k < m.length) (hj : j < 8) :
    crc8 (flipBit m k j) ≠ crc8 m := by
  intro h
  have hm : m = m.take k ++ m[k] :: m.drop (k + 1) := by simp
  rw [flipBit_eq_append hk] at h
  conv_rhs at h => rw [hm]
  exact xor_twoPow_ne m[k] hj (crc8_replace_injective _ _ h)

theorem drop_two_flipBit (bs : List Byte) (k j : Nat) : (flipBit bs (k + 2) j).drop 2 = flipBit (bs.drop 2) k j := by
  match bs with
  | [] => simp [flipBit]
  | [_] => simp [flipBit]
  | _ :: _ :: _ => rfl

/-- A frame with one bit flipped is no valid frame: offsets 0 and 1 are header bytes, the others go into the CRC
(conflict C6). -/
theorem not_validFrame_flipBit {f : List Byte} {k j : Nat} (hv : ValidFrame f) (hk : k < 26) (hj : j < 8) :
    ¬ ValidFrame (flipBit f k j) := by
  obtain ⟨hl, ⟨h0, h1, -⟩, hcrc⟩ := hv
  rintro ⟨hl', ⟨h0', h1', -⟩, hcrc'⟩
  have hne : (flipBit f k j)[k]? ≠ f[k]? := getElem?_flipBit_ne (by omega) hj
  match k with
  | 0 => exact hne (h0'.trans h0.symm)
  | 1 => exact hne (h1'.trans h1.symm)
  | k + 2 =>
    rw [crcOk_iff_crc8_drop_two hl] at hcrc
    rw [crcOk_iff_crc8_drop_two hl', drop_two_flipBit] at hcrc'
    exact crc8_flipBit_ne (by simp; omega) hj (hcrc'.trans hcrc.symm)

/-- Twenty-six bytes that are no valid frame lose their first byte, whether by SLIDE or by REJECT (R144, R146). -/
theorem afterDecision_of_not_validFrame {s : State} (hl : s.acc.length = 26) (hv : ¬ ValidFrame s.acc) :
    afterDecision (syncDecision s.acc) s = { s with acc := s.acc.drop 1, phase := .searching } := by
  rcases afterDecision_cases s with ⟨h, -⟩ | ⟨-, -, -, he⟩ | ⟨k, hf, hk, hc, -, -⟩ | ⟨k, -, hk, -, -, he⟩
  · omega
  · exact he
  · obtain rfl : k = 0 := by omega
    have hw : window s.acc 0 = s.acc := List.take_of_length_le hl.le
    rw [hw] at hc
    exact absurd ⟨hl, ((findHeader_eq_some_iff s.acc 0).1 hf).1, hc⟩ hv
  · obtain rfl : k = 0 := by omega
    exact he

theorem drainState_of_not_validFrame {s : State} (hf : s.fault = .none) (hl : s.acc.length = 26)
    (hv : ¬ ValidFrame s.acc) : drainState s = { s with acc := s.acc.drop 1, phase := .searching } := by
  rw [drainState_step hf hl.ge, afterDecision_of_not_validFrame hl hv]
  exact drainState_of_short (by simp [hl])

/-- Settles O19: the flipped frame fits, is no valid frame, and so loses its first byte. -/
theorem singleBitErrorIsNotAccepted : Obligations.SingleBitErrorIsNotAccepted := by
  intro s f k j hf hacc hlegal hv hk hj
  have hl : (flipBit f k j).length = 26 := (length_flipBit f k j).trans hv.1
  have hcap : capAdmits s.params (s.acc.length + (flipBit f k j).length) = true := by
    rw [capAdmits_iff, hacc, hl]
    exact fun c hc => hlegal.1 c hc
  have hheld : (addTail (flipBit f k j) s).acc = flipBit f k j := by simp [hacc]
  have hdrain := drainState_of_not_validFrame (s := addTail (flipBit f k j) s) hf (by rw [hheld, hl])
    (by rw [hheld]; exact not_validFrame_flipBit hv hk hj)
  rw [hheld] at hdrain
  exact ⟨_, (execFeed_of_running hf hcap).trans (congrArg _ hdrain), rfl, rfl, rfl⟩

end Sys2Proof.Machine

/-! The byte accumulator (41_accumulator.md): the three answers of `APPEND` and the two of `DISCARD`, a chunk pushed byte by
byte, and along every instruction but `RESET` what is held stays a suffix of what was held and delivered (R134). -/

namespace Sys2Proof.Machine

/-! ## `APPEND` and `DISCARD` (R131, R133) -/

theorem appendBytes_of_capAdmits {bs : List Byte} {s : State} (hf : s.fault = .none)
    (hc : capAdmits s.params (s.acc.length + bs.length) = true) : appendBytes bs s = .next (addTail bs s) :=
  appendBytes_eq_next_iff.2 ⟨hf, hc, rfl⟩

theorem appendBytes_of_not_capAdmits {bs : List Byte} {s : State} (hf : s.fault = .none)
    (hc : ¬ capAdmits s.params (s.acc.length + bs.length) = true) : appendBytes bs s = .refused .capacityExceeded := by
  rw [appendBytes, whenRunning, if_pos hf, if_neg hc]

theorem appendBytes_of_faulted {s : State} (hf : s.fault ≠ .none) (bs : List Byte) :
    appendBytes bs s = .fault .stoppedByFault :=
  if_neg hf

theorem not_capAdmits_iff {p : Config.Params} {n : Nat} :
    ¬ capAdmits p n = true ↔ ∃ c, p.accCap = some c ∧ c < n := by
  simp [capAdmits_iff]

/-- Settles O20: the capacity admits the bytes or does not, and a fault stops the block before it is asked. -/
theorem appendAddsBytesAtTheTail : Obligations.AppendAddsBytesAtTheTail := fun _ bs =>
  ⟨fun hf hc => appendBytes_of_capAdmits hf ((capAdmits_iff ..).2 hc),
    fun hf hc => appendBytes_of_not_capAdmits hf (not_capAdmits_iff.2 hc),
    fun hf => appendBytes_of_faulted hf bs⟩

theorem execDiscard_of_running {s : State} (hf : s.fault = .none) (n : Nat) :
    execDiscard n s = .next (commit s (discardBytes n s)) :=
  if_pos hf

/-- Settles O22: the bytes go, or the fault is entered. -/
theorem discardRemovesTheHeadOrFaults : Obligations.DiscardRemovesTheHeadOrFaults := by
  intro s n hf
  rw [exec, execDiscard_of_running hf]
  exact ⟨fun h => by rw [discardBytes_of_le h]; rfl, fun h => by rw [discardBytes_of_lt h]; rfl⟩

/-! ## A chunk byte by byte (R132) -/

theorem capAdmits_mono {p : Config.Params} {m n : Nat} (hmn : m ≤ n) (h : capAdmits p n = true) :
    capAdmits p m = true := by
  rw [capAdmits_iff] at h ⊢
  exact fun c hc => hmn.trans (h c hc)

/-- Bytes appended after others are judged as all of them together. -/
theorem appendBytes_addTail (bs cs : List Byte) (s : State) : appendBytes cs (addTail bs s) = appendBytes (bs ++ cs) s := by
  simp [appendBytes, whenRunning, Nat.add_assoc]

theorem execAll_singleton (i : Instr) (s : State) : execAll [i] s = exec i s := by
  rw [execAll]
  cases exec i s <;> rfl

/-- The first byte that does not fit stops the run where the whole chunk is refused. -/
theorem execAll_push_eq_appendBytes (b : Byte) (bs : List Byte) (s : State) :
    execAll ((b :: bs).map .push) s = appendBytes (b :: bs) s := by
  induction bs generalizing b s with
  | nil => exact execAll_singleton (.push b) s
  | cons c bs ih =>
    have hpush : exec (.push b) s = appendBytes [b] s := rfl
    rw [List.map_cons, execAll, hpush]
    by_cases hf : s.fault = .none
    · by_cases hc : capAdmits s.params (s.acc.length + [b].length) = true
      · rw [appendBytes_of_capAdmits hf hc]
        exact (ih c (addTail [b] s)).trans (appendBytes_addTail [b] (c :: bs) s)
      · have hchunk : ¬ capAdmits s.params (s.acc.length + (b :: c :: bs).length) = true :=
          mt (capAdmits_mono (by simp)) hc
        rw [appendBytes_of_not_capAdmits hf hc, appendBytes_of_not_capAdmits hf hchunk]
    · rw [appendBytes_of_faulted hf, appendBytes_of_faulted hf]

/-- Settles O21: `PUSH` is the `APPEND` of one byte, and the chunk is pushed by induction on its bytes. -/
theorem pushesReachTheAppendState : Obligations.PushesReachTheAppendState := fun s b bs =>
  ⟨rfl, execAll_push_eq_appendBytes b bs s, fun hf hc => appendBytes_of_capAdmits hf ((capAdmits_iff ..).2 hc)⟩

/-! ## Bytes go from the head only (R134) -/

theorem afterDecision_acc_suffix (s : State) : (afterDecision (syncDecision s.acc) s).acc <:+ s.acc := by
  rcases afterDecision_cases s with
    ⟨-, -, h⟩ | ⟨-, -, -, h⟩ | ⟨k, -, -, -, -, h⟩ | ⟨k, -, -, -, -, h⟩
  · rw [h]
  all_goals rw [h]; exact List.drop_suffix ..

theorem drainState_acc_suffix {s : State} (hf : s.fault = .none) : (drainState s).acc <:+ s.acc :=
  drainState_preserves (Inv := fun t => t.acc <:+ s.acc)
    (fun t ht _ => (afterDecision_acc_suffix t).trans ht) hf List.suffix_rfl

theorem whenRunning_eq_next_iff {s t : State} {k : Host.Outcome State Fault Refusal} :
    whenRunning s k = .next t ↔ s.fault = .none ∧ k = .next t := by
  by_cases hf : s.fault = .none <;> simp [whenRunning, hf]

theorem execSync_acc_suffix {s t : State} (h : execSync s = .next t) : t.acc <:+ s.acc := by
  obtain ⟨hf, -⟩ := whenRunning_eq_next_iff.1 h
  rw [execSync_of_running hf] at h
  cases h
  exact afterDecision_acc_suffix s

theorem syncAs_acc_suffix {o : SyncOutcome} {s t : State} (h : syncAs o s = .next t) : t.acc <:+ s.acc := by
  obtain ⟨hf, -⟩ := whenRunning_eq_next_iff.1 h
  rw [syncAs_of_running hf] at h
  split at h
  · cases h; exact afterDecision_acc_suffix s
  · cases h

theorem execFrameRc16_acc_suffix {ch : ChannelSet} {crc : Byte} {s t : State} (h : execFrameRc16 ch crc s = .next t) :
    t.acc <:+ s.acc := by
  rw [execFrameRc16_eq] at h
  split at h
  · exact execSync_acc_suffix h
  · cases (whenRunning_eq_next_iff.1 h).2

theorem execDrain_acc_suffix {s t : State} (h : execDrain s = .next t) : t.acc <:+ s.acc := by
  obtain ⟨hf, ht⟩ := whenRunning_eq_next_iff.1 h
  cases ht
  exact drainState_acc_suffix hf

theorem execDiscard_acc_suffix {n : Nat} {s t : State} (h : execDiscard n s = .next t) : t.acc <:+ s.acc := by
  obtain ⟨-, rfl | rfl⟩ := execDiscard_next h
  · exact List.drop_suffix n s.acc
  · exact List.suffix_rfl

theorem execDecode_acc {f : List Byte} {s t : State} (h : execDecode f s = .next t) : t.acc = s.acc := by
  obtain ⟨-, rfl⟩ | ⟨-, -, rfl⟩ := execDecode_next h <;> rfl

theorem execReadFps_acc {s t : State} (h : execReadFps s = .next t) : t.acc = s.acc := by
  unfold execReadFps at h
  split at h <;> cases h
  rfl

theorem appendBytes_acc {bs : List Byte} {s t : State} (h : appendBytes bs s = .next t) : t.acc = s.acc ++ bs := by
  obtain ⟨-, -, rfl⟩ := appendBytes_eq_next_iff.1 h
  rfl

theorem drainState_acc_suffix_of_appendBytes {bs : List Byte} {s u : State} (h : appendBytes bs s = .next u) :
    (drainState u).acc <:+ s.acc ++ bs := by
  obtain ⟨hf, -, rfl⟩ := appendBytes_eq_next_iff.1 h
  exact drainState_acc_suffix (s := addTail bs s) hf

theorem execFeed_acc_suffix {bs : List Byte} {s t : State} (h : execFeed bs s = .next t) : t.acc <:+ s.acc ++ bs := by
  unfold execFeed at h
  split at h <;> cases h
  exact drainState_acc_suffix_of_appendBytes ‹_›

/-- Draining between the bytes takes from the head only, so the bytes still to come land behind what is left. -/
theorem pushAndDrainEach_acc_suffix {bs : List Byte} {s t : State} (h : pushAndDrainEach bs s = .next t) :
    t.acc <:+ s.acc ++ bs := by
  induction bs generalizing s with
  | nil => cases h; rw [List.append_nil]
  | cons b bs ih =>
    unfold pushAndDrainEach at h
    split at h
    · rename_i u hu
      rw [List.append_cons]
      exact (ih h).trans (List.suffix_append_self_iff.2 (drainState_acc_suffix_of_appendBytes hu))
    · cases h
    · cases h

/-- What is held after an instruction that is not `RESET` is a suffix of what was held and what it delivers. -/
theorem exec_acc_suffix {i : Instr} {s t : State} (hr : i ≠ .reset) (h : exec i s = .next t) :
    t.acc <:+ s.acc ++ i.bytesIn := by
  have noBytes : t.acc <:+ s.acc → t.acc <:+ s.acc ++ [] := by rw [List.append_nil]; exact id
  cases i with
  | reset => exact absurd rfl hr
  | append bs | push b => exact appendBytes_acc h ▸ List.suffix_rfl
  | feed bs => exact execFeed_acc_suffix h
  | feed1 bs => exact pushAndDrainEach_acc_suffix h
  | find | crc8Update c b | crc8 m | crcchk f | snap | pack v => cases h; exact noBytes List.suffix_rfl
  | readFps => exact noBytes (execReadFps_acc h ▸ List.suffix_rfl)
  | decode f => exact noBytes (execDecode_acc h ▸ List.suffix_rfl)
  | frameRc16 ch crc => exact noBytes (execFrameRc16_acc_suffix h)
  | sync => exact noBytes (execSync_acc_suffix h)
  | syncWait | syncSlide | syncAccept | syncReject => exact noBytes (syncAs_acc_suffix h)
  | drain => exact noBytes (execDrain_acc_suffix h)
  | discard n => exact noBytes (execDiscard_acc_suffix h)
  | publish v => obtain ⟨-, rfl⟩ := execPublish_next h; exact noBytes List.suffix_rfl
  | recordFrame now =>
    obtain ⟨-, -, rfl⟩ := execRecordFrame_next h
    exact noBytes (recordFrame_acc s now ▸ List.suffix_rfl)

/-- Settles O23: a suffix is what is left after some bytes went from the head. -/
theorem accumulatorGrowsAtTheTailOnly : Obligations.AccumulatorGrowsAtTheTailOnly :=
  fun _ _ _ hr h => ⟨_, List.suffix_iff_eq_drop.1 (exec_acc_suffix hr h)⟩

end Sys2Proof.Machine

/-! The synchronizer (42_synchronizer.md): each outcome of an iteration is the decision taken and its effect, `DRAIN` is the
iterations one after another (R148), a quiescent block keeps what it holds (R149), and noise in front of a valid frame goes
by rejections alone (R153). -/

namespace Sys2Proof.Machine

/-! ## One iteration and its rows (R141 to R147) -/

/-- Settles O24: what `FIND` hands over is the header search's answer. -/
theorem findReturnsTheFirstHeader : Obligations.FindReturnsTheFirstHeader :=
  fun s => ⟨findHeader s.acc, rfl, findHeader_eq_some_iff s.acc, findHeader_eq_none_iff s.acc⟩

/-- `SYNC` and the row of the outcome taken reach the state after the decision, `SYNC` with the outcome handed over. -/
theorem exec_sync_and_row_of_decision {s : State} {d : Decision} (hf : s.fault = .none) (hd : syncDecision s.acc = d) :
    exec .sync s = .next (answer (.outcome d.outcome) (afterDecision d s)) ∧
      exec (outcomeInstr d.outcome) s = .next (afterDecision d s) := by
  subst hd
  exact ⟨execSync_of_running hf, by rw [exec_outcomeInstr, syncAs_of_running hf, if_pos rfl]⟩

/-- Settles O25: the decision is WAIT, which has no effect. -/
theorem syncWaitsForTwentySixBytes : Obligations.SyncWaitsForTwentySixBytes :=
  fun _ hf hl => exec_sync_and_row_of_decision hf (syncDecision_eq_wait_iff.2 hl)

/-- Settles O26: the decision is SLIDE. -/
theorem syncSlidesByOneByte : Obligations.SyncSlidesByOneByte := by
  intro s hf hl hk
  have hd : syncDecision s.acc = .slide := syncDecision_of_slide hl fun k h => by
    have := hk k ((findHeader_eq_some_iff ..).1 h)
    omega
  have h := exec_sync_and_row_of_decision hf hd
  rw [afterDecision_slide (by omega)] at h
  exact h

/-- Settles O27: the decision is ACCEPT, and its effect on the rate tracker is that of `RECORD_FRAME` at the port's time. -/
theorem syncAcceptsAValidCandidate : Obligations.SyncAcceptsAValidCandidate := by
  intro s k hf hfirst hk hc
  have hd : syncDecision s.acc = .accept k (window s.acc k) := by
    rw [syncDecision_of_complete ((findHeader_eq_some_iff ..).2 hfirst) hk, if_pos hc]
  have h := exec_sync_and_row_of_decision hf hd
  rw [afterDecision_accept (length_window hk) hk] at h
  exact ⟨unpackChannels (window s.acc k), recordAcceptance s, execDecode_of_length (length_window hk) s,
    execRecordFrame_port hf, h⟩

/-- Settles O28: the decision is REJECT. -/
theorem syncRejectsAFalseMatch : Obligations.SyncRejectsAFalseMatch := by
  intro s k hf hfirst hk hc
  have hd : syncDecision s.acc = .reject k := by
    rw [syncDecision_of_complete ((findHeader_eq_some_iff ..).2 hfirst) hk, hc]; rfl
  have h := exec_sync_and_row_of_decision hf hd
  rw [afterDecision_reject (by omega)] at h
  exact h

/-- Settles O29: the outcome taken is the decision's. -/
theorem outcomesExcludeOneAnother : Obligations.OutcomesExcludeOneAnother := by
  intro s hf
  obtain ⟨hsync, hrow⟩ := exec_sync_and_row_of_decision hf rfl
  refine ⟨_, _, hrow, hsync, fun o' ho' => ?_⟩
  rw [exec_outcomeInstr, syncAs_of_running hf, if_neg ho'.symm]

/-- Settles O30: a running block performs the update. -/
theorem publishReplacesAllChannels : Obligations.PublishReplacesAllChannels :=
  fun _ _ hf => if_pos hf

/-! ## `DRAIN` (R148) -/

/-- Whatever value stood there before, some number of `SYNC`s, one for each byte above 25 at most, reaches what `DRAIN` reaches
but for the value handed over. -/
def DrainsBySyncs (s : State) : Prop :=
  ∀ r, ∃ n u, n ≤ s.acc.length - 25 ∧ execAll (List.replicate n .sync) (answer r s) = .next u ∧
    u = answer u.result (drainState s)

theorem drainsBySyncs_of_running (s : State) (hf : s.fault = .none) : DrainsBySyncs s := by
  refine drain_induction (P := DrainsBySyncs) ?short ?step s hf
  case short => exact fun s _ h r => ⟨0, answer r s, Nat.zero_le _, rfl, by rw [drainState_of_short h]; rfl⟩
  case step =>
    intro s hf h ih r
    obtain ⟨n, u, hn, hrun, hu⟩ := ih (.outcome (syncDecision s.acc).outcome)
    have hlt := afterDecision_length_lt h
    refine ⟨n + 1, u, by omega, ?_, by rw [drainState_step hf h]; exact hu⟩
    refine execAll_cons_eq_next_iff.2 ⟨_, execSync_of_running (s := answer r s) hf, ?_⟩
    rw [answer_acc, afterDecision_answer, answer_answer]
    exact hrun

/-- Settles O31: the `SYNC`s start with the value held before, which `DRAIN` leaves alone. -/
theorem drainIsBoundedRepetitionOfSync : Obligations.DrainIsBoundedRepetitionOfSync := by
  intro s hf
  obtain ⟨n, u, hn, hrun, hu⟩ := drainsBySyncs_of_running s hf s.result
  have hdrain : drainState s = answer s.result u := by
    rw [hu, answer_answer]
    exact drainState_answer s.result s hf
  refine ⟨n, u, hn, hrun, ?_, by rw [exec, execDrain_of_running hf, hdrain]; rfl⟩
  rw [hu]
  exact Nat.le_of_lt_succ (drainState_spec s hf).1

/-- Settles O32: `DRAIN` leaves a quiescent state. -/
theorem drainIsIdempotent : Obligations.DrainIsIdempotent := by
  intro s t h
  obtain ⟨hf, ht⟩ := whenRunning_eq_next_iff.1 h
  cases ht
  obtain ⟨hl, hfd⟩ := drainState_spec s hf
  rw [exec, execDrain_of_running hfd, drainState_of_short hl]

/-! ## The idle step and settled states (R149) -/

/-- The decoder reads the frame row only, and only where its 26 bytes stand at the head of the accumulator. -/
theorem exists_frameBytes_of_fetch {acc : List Byte} {i : Instr} (h : fetch acc = some i) :
    ∃ ch crc rest, i = .frameRc16 ch crc ∧ acc = frameBytes ch crc ++ rest := by
  unfold fetch at h
  split at h
  · next j rest hd =>
    cases h
    obtain ⟨w, hw, hacc⟩ := encodeOfDecodeIsTheBytes _ _ _ hd
    obtain ⟨ch, crc, rfl, rfl⟩ := encode_eq_some_iff.1 hw
    exact ⟨ch, crc, rest, rfl, hacc⟩
  · cases h

/-- Settles O33: the worker's instruction is `SYNC`, or the frame row that is `SYNC` there. -/
theorem idleStepIsSync : Obligations.IdleStepIsSync := by
  intro s hs
  have hop : nextOp s = (fetch s.acc).getD .sync := by simp [nextOp, hs]
  rw [step, takeEvent_of_nil hs, hop]
  cases h : fetch s.acc with
  | none => rfl
  | some i =>
    obtain ⟨ch, crc, rest, rfl, hacc⟩ := exists_frameBytes_of_fetch h
    exact execFrameRc16_of_frame_at_head hacc

theorem execSync_of_quiescent {s t : State} (hq : Quiescent s) (h : execSync s = .next t) : t = answer t.result s := by
  obtain ⟨hf, -⟩ := whenRunning_eq_next_iff.1 h
  rw [execSync_of_running hf, syncDecision_eq_wait_iff.2 hq] at h
  cases h
  rfl

/-- What the row of an outcome can do. -/
theorem syncAs_next {o : SyncOutcome} {s t : State} (h : syncAs o s = .next t) :
    (syncDecision s.acc).outcome = o ∧ t = afterDecision (syncDecision s.acc) s := by
  obtain ⟨hf, -⟩ := whenRunning_eq_next_iff.1 h
  rw [syncAs_of_running hf] at h
  split at h
  · next ho => cases h; exact ⟨ho, rfl⟩
  · cases h

theorem syncAs_of_quiescent {o : SyncOutcome} {s t : State} (hq : Quiescent s) (h : syncAs o s = .next t) :
    t = answer t.result s := by
  obtain ⟨-, rfl⟩ := syncAs_next h
  rw [syncDecision_eq_wait_iff.2 hq]
  rfl

theorem execDrain_of_quiescent {s t : State} (hq : Quiescent s) (h : execDrain s = .next t) : t = answer t.result s := by
  obtain ⟨-, ht⟩ := whenRunning_eq_next_iff.1 h
  rw [drainState_of_short hq] at ht
  cases ht
  rfl

theorem appendBytes_nil_next {s t : State} (h : appendBytes [] s = .next t) : t = s := by
  obtain ⟨-, -, rfl⟩ := appendBytes_eq_next_iff.1 h
  exact addTail_nil s

/-- In a quiescent block an operation that delivers no bytes only hands over a value, unless it is `RESET` or one the worker
performs inside `SYNC` (R143, R149). -/
theorem exec_of_quiescent {i : Instr} {s t : State} (hq : Quiescent s) (hi : i.disciplined = true) (hr : i ≠ .reset)
    (hb : i.bytesIn = []) (h : exec i s = .next t) : t = answer t.result s := by
  cases i with
  | reset => exact absurd rfl hr
  | frameRc16 ch crc =>
    rw [exec, execFrameRc16_eq] at h
    split at h
    · exact execSync_of_quiescent hq h
    · cases (whenRunning_eq_next_iff.1 h).2
  | sync => exact execSync_of_quiescent hq h
  | syncWait | syncSlide | syncAccept | syncReject => exact syncAs_of_quiescent hq h
  | drain => exact execDrain_of_quiescent hq h
  | append bs =>
    obtain rfl : bs = [] := hb
    obtain rfl := appendBytes_nil_next h
    rfl
  | feed bs =>
    obtain rfl : bs = [] := hb
    rw [exec, execFeed] at h
    split at h
    · rename_i u hu
      obtain rfl := appendBytes_nil_next hu
      rw [drainState_of_short hq] at h
      cases h; rfl
    · cases h
    · cases h
  | feed1 bs =>
    obtain rfl : bs = [] := hb
    cases h; rfl
  | push b => cases hb
  | readFps =>
    rw [exec, execReadFps] at h
    split at h
    · cases h; rfl
    · cases h
  | find | crc8Update c b | crc8 m | crcchk f | snap | pack v => cases h; rfl
  | discard n | decode f | publish v | recordFrame now => cases hi

/-- An idle step delivers no bytes, and a scheduled one in a settled state none either. -/
theorem bytesIn_nextOp_of_settled {s : State} (h : Settled s) : (nextOp s).bytesIn = [] := by
  unfold nextOp
  split
  · next e rest hs => exact h.2.1 e (by simp [hs])
  · cases hf : fetch s.acc with
    | none => rfl
    | some i =>
      obtain ⟨ch, crc, rest, rfl, -⟩ := exists_frameBytes_of_fetch hf
      rfl

theorem takeEvent_blockState (s : State) :
    (takeEvent s).acc = s.acc ∧ (takeEvent s).ch = s.ch ∧ (takeEvent s).rt = s.rt ∧ (takeEvent s).hist = s.hist := by
  unfold takeEvent
  split <;> exact ⟨rfl, rfl, rfl, rfl⟩

theorem settled_takeEvent {s : State} (h : Settled s) : Settled (takeEvent s) := by
  obtain ⟨hf, hb, hq⟩ := h
  unfold takeEvent
  split
  · next e rest hs => exact ⟨hf, fun e' he' => hb e' (by simp [hs, he']), hq⟩
  · exact ⟨hf, hb, hq⟩

/-- Settles O59: `RESET` empties the accumulator, and any other operation performed only hands over a value. -/
theorem settledStatesStaySettled : Obligations.SettledStatesStaySettled := by
  intro s t hs hset h
  obtain ⟨hf, hb, hq⟩ := settled_takeEvent hset
  by_cases hr : nextOp s = .reset
  · rw [step, hr] at h
    cases h
    exact ⟨⟨rfl, hb, by simp⟩, fun hne => absurd hr hne⟩
  · have ht := exec_of_quiescent hq hs.disciplined_nextOp hr (bytesIn_nextOp_of_settled hset) h
    rw [ht]
    exact ⟨⟨hf, hb, hq⟩, fun _ => takeEvent_blockState s⟩

/-! ## Bytes gone from the head, and noise (R146, R153) -/

theorem headerOccurs_drop {bs : List Byte} {n k : Nat} : HeaderOccurs (bs.drop n) k ↔ HeaderOccurs bs (n + k) := by
  simp only [HeaderOccurs, List.getElem?_drop, Nat.add_assoc]

theorem window_drop (bs : List Byte) (n k : Nat) : window (bs.drop n) k = window bs (n + k) := by
  rw [window, List.drop_drop]

/-- Settles O35: the rejected match is the first occurrence, and the bytes up to it alone are gone. -/
theorem rejectKeepsLaterHeaders : Obligations.RejectKeepsLaterHeaders := by
  intro s t k j h hfirst hkj hj
  obtain ⟨ho, ht⟩ := syncAs_next h
  have hfind := (findHeader_eq_some_iff ..).2 hfirst
  rcases afterDecision_cases s with
      ⟨-, hd, -⟩ | ⟨-, hd, -, -⟩ | ⟨k', -, -, -, hd, -⟩ | ⟨k', hfind', -, -, hd, he⟩ <;>
    rw [hd] at ho <;> cases ho
  obtain rfl : k = k' := Option.some.inj (hfind.symm.trans hfind')
  rw [ht, he]
  exact headerOccurs_drop.2 (by rwa [Nat.add_sub_cancel' hkj])

/-- The precondition of conflict C11: no header occurrence that starts in the noise has a window that passes the CRC. -/
def HarmlessNoise (noise frame : List Byte) : Prop :=
  ∀ k < noise.length, HeaderOccurs (noise ++ frame) k → crcOk (window (noise ++ frame) k) = false

theorem HarmlessNoise.drop {noise frame : List Byte} (h : HarmlessNoise noise frame) (n : Nat) :
    HarmlessNoise (noise.drop n) frame := by
  intro k hk hk'
  rw [List.length_drop] at hk
  rw [← List.drop_append_of_le_length (by omega)] at hk' ⊢
  rw [window_drop]
  exact h (n + k) (by omega) (headerOccurs_drop.1 hk')

/-- A header stands where the frame begins, so the first one is there or in the noise. -/
theorem exists_findHeader_le_length_noise (noise : List Byte) {frame : List Byte} (hh : HeaderOccurs frame 0)
    (tail : List Byte) : ∃ k ≤ noise.length, findHeader (noise ++ frame ++ tail) = some k := by
  have hat : HeaderOccurs (noise ++ frame ++ tail) (noise.length + 0) := by
    rw [← headerOccurs_drop, List.append_assoc, List.drop_left, headerOccurs_append (headerOccurs_lt hh)]
    exact hh
  cases hf : findHeader (noise ++ frame ++ tail) with
  | none => exact absurd hat ((findHeader_eq_none_iff _).1 hf _)
  | some k => exact ⟨k, Nat.not_lt.1 fun hlt => ((findHeader_eq_some_iff ..).1 hf).2 _ hlt hat, rfl⟩

/-- What an iteration makes of harmless noise, a valid frame and what follows: it rejects a match in the noise, or accepts the
frame together with all of the noise. -/
theorem afterDecision_of_harmlessNoise {s : State} {noise frame tail : List Byte}
    (hacc : s.acc = noise ++ frame ++ tail) (hv : ValidFrame frame) (hn : HarmlessNoise noise frame) :
    (∃ k < noise.length, afterDecision (syncDecision s.acc) s =
      { s with acc := noise.drop (k + 1) ++ frame ++ tail, phase := .searching }) ∨
    afterDecision (syncDecision s.acc) s =
      { s with
        acc := tail, ch := unpackChannels frame, phase := .searching,
        hist := s.hist ++ [{ frame := frame, channels := unpackChannels frame }],
        rt := (recordAcceptance s).rt, rtDraws := (recordAcceptance s).rtDraws } := by
  obtain ⟨hl, hh, hc⟩ := hv
  obtain ⟨k, hk, hfind⟩ := exists_findHeader_le_length_noise noise hh tail
  rw [← hacc] at hfind
  have hin : k + 26 ≤ (noise ++ frame).length := by simp; omega
  have hwin : window s.acc k = window (noise ++ frame) k := by rw [hacc, window_append hin]
  have hfits : k + 26 ≤ s.acc.length := by rw [hacc, List.length_append]; omega
  have hd := syncDecision_of_complete hfind hfits
  rw [hwin] at hd
  obtain hlt | rfl := Nat.lt_or_eq_of_le hk
  · left
    have hocc : HeaderOccurs (noise ++ frame) k := by
      rw [← headerOccurs_append (cs := tail) (by omega), ← hacc]
      exact ((findHeader_eq_some_iff ..).1 hfind).1
    rw [hn k hlt hocc] at hd
    refine ⟨k, hlt, ?_⟩
    rw [hd, if_neg Bool.false_ne_true, afterDecision_reject (by omega), hacc, List.append_assoc,
      List.drop_append_of_le_length hlt, List.append_assoc]
  · right
    have hframe : window (noise ++ frame) noise.length = frame := by simp [window, hl]
    have hrest : s.acc.drop (noise.length + 26) = tail := by rw [hacc, ← hl, ← List.length_append, List.drop_left]
    rw [hframe, if_pos hc] at hd
    rw [hd, afterDecision_accept hl hfits, hrest]

/-- Harmless noise goes by rejections alone, so that draining accepts the frame and leaves what follows it. -/
theorem drainState_of_harmlessNoise {s : State} {noise frame tail : List Byte} (hf : s.fault = .none)
    (hacc : s.acc = noise ++ frame ++ tail) (hv : ValidFrame frame) (ht : tail.length < 26)
    (hn : HarmlessNoise noise frame) :
    drainState s =
      { s with
        acc := tail, ch := unpackChannels frame, phase := .searching,
        hist := s.hist ++ [{ frame := frame, channels := unpackChannels frame }],
        rt := (recordAcceptance s).rt, rtDraws := (recordAcceptance s).rtDraws } := by
  induction hlen : noise.length using Nat.strong_induction_on generalizing s noise with
  | _ l ih =>
    have henough : 26 ≤ s.acc.length := by simp [hacc, hv.1]; omega
    rw [drainState_step hf henough]
    obtain ⟨k, hk, he⟩ | he := afterDecision_of_harmlessNoise hacc hv hn
    · rw [he]
      obtain ⟨hrt, hdraws⟩ := recordAcceptance_rt_of_eq
        (s := { s with acc := noise.drop (k + 1) ++ frame ++ tail, phase := .searching }) (t := s) rfl rfl rfl rfl
      have hshorter : (noise.drop (k + 1)).length < l := by rw [List.length_drop]; omega
      refine (ih _ hshorter ?_ rfl (hn.drop (k + 1)) rfl).trans ?_
      · exact hf
      · rw [hrt, hdraws]
    · rw [he]
      exact drainState_of_short ht

/-- Settles O34: the bytes fit, and draining them rejects the noise and accepts the frame. -/
theorem noiseThenFrameIsAcceptedOnce : Obligations.NoiseThenFrameIsAcceptedOnce := by
  intro s noise frame tail hf hacc hcap hv ht hn
  have hadmits : capAdmits s.params (s.acc.length + (noise ++ frame ++ tail).length) = true := by
    simp [capAdmits_iff, hcap]
  have hdrain := drainState_of_harmlessNoise (s := addTail (noise ++ frame ++ tail) s) hf (by simp [hacc]) hv ht hn
  exact ⟨_, (execFeed_of_running hf hadmits).trans (congrArg _ hdrain), rfl, rfl, rfl⟩

end Sys2Proof.Machine

/-! The channel unpacker and the channel read (43_channel_decoder.md): the lane formula of R171 at each of the sixteen channels,
the length fault of R175 and the snapshot of R179. -/

namespace Sys2Proof.Machine

/-! ## The lanes and the length fault (R172, R175) -/

/-- A lane that begins at most five bits into its byte ends in the next one. -/
theorem unpackChannels_getElem_of_two_bytes (f : List Byte) {i : Nat} (hi : i < 16) (h : i * 11 % 8 ≤ 5) :
    (unpackChannels f)[i] = BitVec.ofNat 11
      ((frameByte f (3 + i * 11 / 8) >>> (i * 11 % 8) ||| frameByte f (3 + i * 11 / 8 + 1) <<< (8 - i * 11 % 8)) &&&
        0x7FF) := by
  have hterms : laneCombined f i = _ := if_neg (Nat.not_lt.2 h)
  rw [unpackChannels, Vector.getElem_ofFn, laneValue, hterms]

/-- A lane that begins in the last two bits of its byte takes its high bits from a third byte. -/
theorem unpackChannels_getElem_of_three_bytes (f : List Byte) {i : Nat} (hi : i < 16) (h : 5 < i * 11 % 8) :
    (unpackChannels f)[i] = BitVec.ofNat 11
      ((frameByte f (3 + i * 11 / 8) >>> (i * 11 % 8) ||| frameByte f (3 + i * 11 / 8 + 1) <<< (8 - i * 11 % 8) |||
          frameByte f (3 + i * 11 / 8 + 2) <<< (16 - i * 11 % 8)) &&& 0x7FF) := by
  have hterms : laneCombined f i = _ := if_pos h
  rw [unpackChannels, Vector.getElem_ofFn, laneValue, hterms]

/-- Settles O36: lanes 2, 5, 10 and 13 take three bytes, the others two. -/
theorem decodeComputesTheSixteenLanes : Obligations.DecodeComputesTheSixteenLanes := by
  intro s f hl b lane
  refine (execDecode_of_length hl s).trans
    (congrArg (fun v => Host.Outcome.next (answer (.channels v) s)) (Vector.ext fun i (hi : i < 16) => ?_))
  match i, hi with
  | 2, hi | 5, hi | 10, hi | 13, hi => exact unpackChannels_getElem_of_three_bytes f hi (by decide)
  | 0, hi | 1, hi | 3, hi | 4, hi | 6, hi | 7, hi | 8, hi | 9, hi | 11, hi | 12, hi | 14, hi | 15, hi =>
    exact unpackChannels_getElem_of_two_bytes f hi (by decide)
  | _ + 16, hi => omega

theorem execDecode_of_length_ne {f : List Byte} (h : f.length ≠ 26) (s : State) :
    execDecode f s = whenRunning s (.next (raiseFault (.decodeLength f.length) s)) := by
  simp [execDecode, decodeFrame, h]

/-- Settles O38: a running block enters the length fault. -/
theorem decodeOfAnotherLengthFaults : Obligations.DecodeOfAnotherLengthFaults :=
  fun s _ hf hl => (execDecode_of_length_ne hl s).trans (whenRunning_eq_next_iff.2 ⟨hf, rfl⟩)

/-- Settles O39: the meaning of `SNAP` asks nothing of the state. -/
theorem snapReturnsTheChannels : Obligations.SnapReturnsTheChannels :=
  fun _ => rfl

end Sys2Proof.Machine

/-! The rate tracker (44_rate_tracker.md): the three answers of `RECORD_FRAME`, the read of the estimate, and the block with the
unit taken out, which performs every other instruction as the block with the unit does (R190). -/

namespace Sys2Proof.Machine

/-! ## `RECORD_FRAME` (R191, R192, R195) -/

theorem execRecordFrame_of_running {s : State} (hr : s.params.hasRateTracker = true) (hf : s.fault = .none) (now : Nat) :
    execRecordFrame now s = .next (recordFrame now s) := by
  rw [execRecordFrame, if_pos hr, whenRunning, if_pos hf]

theorem execRecordFrame_of_absent {s : State} (hr : s.params.hasRateTracker = false) (now : Nat) :
    execRecordFrame now s = .refused .noRateTracker :=
  if_neg (Bool.eq_false_iff.1 hr)

theorem recordFrame_of_lt {s : State} {now : Nat} (h : now < s.rt.lastReset) :
    recordFrame now s = { s with rt := anyRateTracker s.rtDraws, rtDraws := s.rtDraws + 1 } :=
  if_pos h

theorem recordFrame_of_le {s : State} {now : Nat} (h : s.rt.lastReset ≤ now) :
    recordFrame now s = { s with rt := countFrame s.params now s.rt } :=
  if_neg (Nat.not_lt.2 h)

/-- Inside the window only the count rises. -/
theorem countFrame_of_lt {p : Config.Params} {now : Nat} {rt : RateTracker} (h : now - rt.lastReset < p.ticksPerSecond) :
    countFrame p now rt = { rt with count := rt.count + 1 } :=
  if_neg (by rw [protocol_rateWindow]; omega)

/-- At its end the window closes, and the quotient is the count over the ticks elapsed, scaled to seconds. -/
theorem countFrame_of_le {p : Config.Params} {now : Nat} {rt : RateTracker} (h : p.ticksPerSecond ≤ now - rt.lastReset) :
    countFrame p now rt =
      { lastReset := now, count := 0,
        fps := roundFps p.fpsFormat
          (((rt.count + 1) * p.ticksPerSecond : Nat) / ((now - rt.lastReset : Nat) : Rat)) } :=
  if_pos (by rw [protocol_rateWindow]; omega)

/-- Scaling the count by the ticks of a second is dividing it by the elapsed seconds (R192). -/
theorem scaledCount_div_ticks_eq {last now : Nat} (h : last ≤ now) (count tps : Nat) :
    (((count + 1) * tps : Nat) : Rat) / ((now - last : Nat) : Rat) =
      ((count : Rat) + 1) / (((now : Rat) - (last : Rat)) / (tps : Rat)) := by
  rw [div_div_eq_mul_div, Nat.cast_sub h]
  push_cast
  rfl

/-- Settles O40: `countFrame` on either side of one second; the exact format keeps the quotient. -/
theorem recordFrameCountsAndRollsOver : Obligations.RecordFrameCountsAndRollsOver := by
  intro s now hf hr _ hle
  rw [exec, execRecordFrame_of_running hr hf, recordFrame_of_le hle]
  refine ⟨fun h => by rw [countFrame_of_lt h], fun h => ⟨_, ?nonneg, ?exact, by rw [countFrame_of_le h]⟩⟩
  case nonneg => exact roundFps_nonneg _ (by positivity)
  case exact =>
    intro hexact
    rw [hexact]
    exact scaledCount_div_ticks_eq hle ..

/-- Settles O41: `RT` takes free values, whose counter goes up. -/
theorem backwardTimeTouchesTheRateTrackerOnly : Obligations.BackwardTimeTouchesTheRateTrackerOnly :=
  fun _ now hf hr hlt =>
    ⟨_, _, (execRecordFrame_of_running hr hf now).trans (congrArg _ (recordFrame_of_lt hlt))⟩

/-! ## `READ_FPS` (R193) -/

/-- Settles O42: the parameter alone decides whether the unit's two operations exist. -/
theorem readFpsReturnsTheEstimate : Obligations.ReadFpsReturnsTheEstimate :=
  fun _ => ⟨fun hr => if_pos hr, fun hr => ⟨if_neg (Bool.eq_false_iff.1 hr), execRecordFrame_of_absent hr⟩⟩

/-! ## The block with the unit taken out (R190)

`APPEND`, `SYNC` and `DRAIN` are `exec_withoutRateTracker`'s; here are the operations built from them, and the rest. -/

theorem execFrameRc16_withoutRateTracker (ch : ChannelSet) (crc : Byte) (s : State) :
    execFrameRc16 ch crc (withoutRateTracker s) = mapNext withoutRateTracker (execFrameRc16 ch crc s) := by
  rw [execFrameRc16_eq, execFrameRc16_eq, apply_ite (mapNext withoutRateTracker), mapNext_whenRunning,
    execSync_withoutRateTracker]
  rfl

theorem syncAs_withoutRateTracker (o : SyncOutcome) (s : State) :
    syncAs o (withoutRateTracker s) = mapNext withoutRateTracker (syncAs o s) := by
  rw [syncAs, syncAs, mapNext_whenRunning, apply_ite (mapNext withoutRateTracker), mapNext,
    ← afterDecision_withoutRateTracker]
  rfl

theorem execDiscard_withoutRateTracker (n : Nat) (s : State) :
    execDiscard n (withoutRateTracker s) = mapNext withoutRateTracker (execDiscard n s) := by
  have hd : commit (withoutRateTracker s) (discardBytes n (withoutRateTracker s)) =
      withoutRateTracker (commit s (discardBytes n s)) := by
    by_cases h : n ≤ s.acc.length
    · rw [discardBytes_of_le h, discardBytes_of_le (s := withoutRateTracker s) h]; rfl
    · rw [discardBytes_of_lt (Nat.not_le.1 h), discardBytes_of_lt (s := withoutRateTracker s) (Nat.not_le.1 h)]; rfl
  rw [execDiscard, execDiscard, mapNext_whenRunning, mapNext, hd]
  rfl

theorem execDecode_withoutRateTracker (f : List Byte) (s : State) :
    execDecode f (withoutRateTracker s) = mapNext withoutRateTracker (execDecode f s) := by
  by_cases h : f.length = 26
  · rw [execDecode_of_length h, execDecode_of_length h]; rfl
  · rw [execDecode_of_length_ne h, execDecode_of_length_ne h, mapNext_whenRunning]; rfl

theorem execPublish_withoutRateTracker (v : ChannelSet) (s : State) :
    execPublish v (withoutRateTracker s) = mapNext withoutRateTracker (execPublish v s) := by
  rw [execPublish, execPublish, mapNext_whenRunning]; rfl

/-- A run of operations that each leave the unit aside leaves it aside. -/
theorem execAll_withoutRateTracker {is : List Instr}
    (his : ∀ i ∈ is, ∀ s, exec i (withoutRateTracker s) = mapNext withoutRateTracker (exec i s)) (s : State) :
    execAll is (withoutRateTracker s) = mapNext withoutRateTracker (execAll is s) := by
  induction is generalizing s with
  | nil => rfl
  | cons i is ih =>
    obtain ⟨hi, his⟩ := List.forall_mem_cons.1 his
    rw [execAll, execAll, hi]
    cases exec i s with
    | next u => exact ih his u
    | fault r => rfl
    | refused r => rfl

theorem execFeed_withoutRateTracker (bs : List Byte) (s : State) :
    execFeed bs (withoutRateTracker s) = mapNext withoutRateTracker (execFeed bs s) := by
  rw [execFeed_eq_execAll, execFeed_eq_execAll]
  refine execAll_withoutRateTracker (fun i hi => ?_) s
  obtain rfl | rfl := List.mem_pair.1 hi
  · exact appendBytes_withoutRateTracker bs
  · exact execDrain_withoutRateTracker

theorem pushAndDrainEach_withoutRateTracker (bs : List Byte) (s : State) :
    pushAndDrainEach bs (withoutRateTracker s) = mapNext withoutRateTracker (pushAndDrainEach bs s) := by
  rw [pushAndDrainEach_eq_execAll, pushAndDrainEach_eq_execAll]
  refine execAll_withoutRateTracker (fun i hi => ?_) s
  obtain ⟨b, -, hi⟩ := List.mem_flatMap.1 hi
  obtain rfl | rfl := List.mem_pair.1 hi
  · exact appendBytes_withoutRateTracker [b]
  · exact execDrain_withoutRateTracker

/-- Settles O43: each operation works on the rest of the block, and only the unit's own two look at what is taken out. -/
theorem rateTrackerCanBeTakenOut : Obligations.RateTrackerCanBeTakenOut := by
  intro i s hread hrecord
  symm
  cases i with
  | readFps => exact absurd rfl hread
  | recordFrame now => exact absurd rfl (hrecord now)
  | reset | find | crc8Update c b | crc8 m | crcchk f | snap | pack v => rfl
  | append bs | push b => exact appendBytes_withoutRateTracker _ s
  | sync => exact execSync_withoutRateTracker s
  | syncWait | syncSlide | syncAccept | syncReject => exact syncAs_withoutRateTracker _ s
  | frameRc16 ch crc => exact execFrameRc16_withoutRateTracker ch crc s
  | drain => exact execDrain_withoutRateTracker s
  | feed bs => exact execFeed_withoutRateTracker bs s
  | feed1 bs => exact pushAndDrainEach_withoutRateTracker bs s
  | discard n => exact execDiscard_withoutRateTracker n s
  | decode f => exact execDecode_withoutRateTracker f s
  | publish v => exact execPublish_withoutRateTracker v s

end Sys2Proof.Machine

/-! Faults (60_exceptions.md): what runs and what stops in a faulted block (R203, R207), the operations that cannot enter a
fault (R202), and that no operation of a block without one is stopped. -/

namespace Sys2Proof.Machine

/-! ## The guard of the mutating operations (R203) -/

theorem whenRunning_of_running {s : State} (hf : s.fault = .none) (k : Host.Outcome State Fault Refusal) :
    whenRunning s k = k :=
  if_pos hf

theorem whenRunning_of_faulted {s : State} (hf : s.fault ≠ .none) (k : Host.Outcome State Fault Refusal) :
    whenRunning s k = .fault .stoppedByFault :=
  if_neg hf

/-! ## A faulted block (R203, R207) -/

theorem execFeed_of_faulted {s : State} (hf : s.fault ≠ .none) (bs : List Byte) :
    execFeed bs s = .fault .stoppedByFault := by
  rw [execFeed, appendBytes_of_faulted hf]

theorem pushAndDrainEach_of_faulted {s : State} (hf : s.fault ≠ .none) (b : Byte) (bs : List Byte) :
    pushAndDrainEach (b :: bs) s = .fault .stoppedByFault := by
  rw [pushAndDrainEach, appendBytes_of_faulted hf]

theorem execRecordFrame_of_faulted {s : State} (hr : s.params.hasRateTracker = true) (hf : s.fault ≠ .none) (now : Nat) :
    execRecordFrame now s = .fault .stoppedByFault := by
  rw [execRecordFrame, if_pos hr, whenRunning_of_faulted hf]

/-- Settles O45: the guard stops every mutating operation, and `SNAP`, `READ_FPS` and `RESET` have none. -/
theorem faultDisablesTheMutatingOperations : Obligations.FaultDisablesTheMutatingOperations := by
  intro s hf
  have stopped := whenRunning_of_faulted hf
  exact ⟨appendBytes_of_faulted hf, fun b => appendBytes_of_faulted hf [b], fun _ => stopped _, fun _ => stopped _,
    stopped _, fun o => (exec_outcomeInstr o s).trans (stopped _), stopped _, execFeed_of_faulted hf,
    pushAndDrainEach_of_faulted hf, fun _ _ => stopped _, fun hr => execRecordFrame_of_faulted hr hf, ⟨_, rfl⟩,
    fun hr => ⟨_, if_pos hr⟩, ⟨_, rfl, rfl⟩⟩

/-- `u` is the faulted block `s`, but for the value handed over last. -/
def StillFaulted (s u : State) : Prop :=
  u.fault ≠ .none ∧ u = { s with result := u.result }

theorem StillFaulted.refl {s : State} (hf : s.fault ≠ .none) : StillFaulted s s :=
  ⟨hf, rfl⟩

theorem StillFaulted.answer {s u : State} (h : StillFaulted s u) (r : Result) : StillFaulted s (answer r u) := by
  obtain ⟨hf, hu⟩ := h
  refine ⟨hf, ?_⟩
  rw [hu]; rfl

/-- Bytes arrive and iterations are taken only in a block without a fault, so a disciplined operation of a faulted one can at
most hand over a value. -/
theorem stillFaulted_of_disciplined {i : Instr} {s t : State} (hf : s.fault ≠ .none) (hi : i.disciplined = true)
    (hr : i ≠ .reset) (h : exec i s = .next t) : StillFaulted s t := by
  refine exec_preserves (Inv := StillFaulted s) hi ?append ?iterate ?hand ?reset (.refl hf) h
  case append => exact fun bs u hu hfu _ => absurd hfu hu.1
  case iterate => exact fun u hu hfu => absurd hfu hu.1
  case hand => exact fun r u hu => hu.answer r
  case reset => exact fun h => absurd h hr

/-- Settles O46: of the four operations the worker performs inside `SYNC` only, a faulted block answers `DECODE` of a whole
frame alone, which hands over its channels. -/
theorem onlyResetLeavesAFault : Obligations.OnlyResetLeavesAFault := by
  intro i s t hf hr h
  by_cases hi : i.disciplined = true
  · exact (stillFaulted_of_disciplined hf hi hr h).2
  cases i with
  | discard n => exact absurd (execDiscard_next h).1 hf
  | decode f =>
    obtain ⟨-, rfl⟩ | ⟨-, hnone, -⟩ := execDecode_next h
    · rfl
    · exact absurd hnone hf
  | publish v => exact absurd (execPublish_next h).1 hf
  | recordFrame now =>
    obtain ⟨-, hnone, -⟩ := execRecordFrame_next h
    exact absurd hnone hf
  | _ => exact absurd rfl hi

/-! ## A block without a fault (R201, R202) -/

/-- Settles O47: no append, iteration, handed-over value or `RESET` writes a fault. -/
theorem disciplinedOperationsRaiseNoFault : Obligations.DisciplinedOperationsRaiseNoFault := by
  intro i s t hi hf h
  refine exec_preserves (Inv := fun u => u.fault = .none) hi ?append ?iterate ?hand ?reset hf h
  case append => exact fun bs u hu _ _ => hu
  case iterate => exact fun u hu _ => (afterDecision_fault u).trans hu
  case hand => exact fun r u hu => hu
  case reset => exact fun _ => rfl

/-- Where the guard lets through an operation that answers a next state or a refusal, nothing is stopped. -/
theorem whenRunning_ite_ne_fault {s : State} (hf : s.fault = .none) {p : Prop} [Decidable p] {t : State}
    {e : Refusal} (r : Fault) : whenRunning s (if p then .next t else .refused e) ≠ .fault r := by
  rw [whenRunning_of_running hf]
  split <;> exact nofun

theorem whenRunning_next_ne_fault {s : State} (hf : s.fault = .none) {t : State} (r : Fault) :
    whenRunning s (.next t) ≠ .fault r := by
  rw [whenRunning_of_running hf]
  exact nofun

theorem appendBytes_ne_fault {s : State} (hf : s.fault = .none) (bs : List Byte) (r : Fault) :
    appendBytes bs s ≠ .fault r :=
  whenRunning_ite_ne_fault hf r

theorem execFeed_ne_fault {s : State} (hf : s.fault = .none) (bs : List Byte) (r : Fault) :
    execFeed bs s ≠ .fault r := by
  rw [execFeed]
  split
  · exact nofun
  · next hstop => exact absurd hstop (appendBytes_ne_fault hf bs _)
  · exact nofun

/-- The append of a byte and the `DRAIN` after it leave the block without a fault for the next byte. -/
theorem pushAndDrainEach_ne_fault {bs : List Byte} {s : State} (hf : s.fault = .none) (r : Fault) :
    pushAndDrainEach bs s ≠ .fault r := by
  induction bs generalizing s with
  | nil => exact nofun
  | cons b bs ih =>
    rw [pushAndDrainEach]
    split
    · next u hu =>
      obtain ⟨-, -, rfl⟩ := appendBytes_eq_next_iff.1 hu
      exact ih (drainState_spec (addTail [b] s) hf).2
    · next hstop => exact absurd hstop (appendBytes_ne_fault hf [b] _)
    · exact nofun

theorem execDecode_ne_fault {s : State} (hf : s.fault = .none) (f : List Byte) (r : Fault) :
    execDecode f s ≠ .fault r := by
  by_cases hl : f.length = 26
  · rw [execDecode_of_length hl]; exact nofun
  · rw [execDecode_of_length_ne hl]; exact whenRunning_next_ne_fault hf r

theorem execRecordFrame_ne_fault {s : State} (hf : s.fault = .none) (now : Nat) (r : Fault) :
    execRecordFrame now s ≠ .fault r := by
  rw [execRecordFrame]
  split
  · exact whenRunning_next_ne_fault hf r
  · exact nofun

theorem execReadFps_ne_fault (s : State) (r : Fault) : execReadFps s ≠ .fault r := by
  rw [execReadFps]
  split <;> exact nofun

/-- No operation of a block without a fault is stopped; one that enters a fault answers a next state (R203). -/
theorem exec_ne_fault {s : State} (hf : s.fault = .none) (i : Instr) (r : Fault) : exec i s ≠ .fault r := by
  cases i with
  | append bs | push b => exact appendBytes_ne_fault hf _ r
  | feed bs => exact execFeed_ne_fault hf bs r
  | feed1 bs => exact pushAndDrainEach_ne_fault hf r
  | frameRc16 ch crc => exact whenRunning_ite_ne_fault hf r
  | syncWait | syncSlide | syncAccept | syncReject => exact whenRunning_ite_ne_fault hf r
  | sync | drain => exact whenRunning_next_ne_fault hf r
  | discard n | publish v => exact whenRunning_next_ne_fault hf r
  | decode f => exact execDecode_ne_fault hf f r
  | recordFrame now => exact execRecordFrame_ne_fault hf now r
  | readFps => exact execReadFps_ne_fault s r
  | reset | find | crc8Update c b | crc8 m | crcchk f | snap | pack v => exact nofun

/-- Settles O49: taking the event off the schedule leaves a sound state, which has no fault. -/
theorem soundStatesAreNeverStopped : Obligations.SoundStatesAreNeverStopped :=
  fun _ r h => exec_ne_fault h.takeEvent.fault _ r

end Sys2Proof.Machine

/-! Reset (70_reset_and_hazards.md R230) and the storage the byte-serial discipline asks for (R236): each `DRAIN` leaves fewer
than 26 bytes, so the next byte always finds room where 26 fit. -/

namespace Sys2Proof.Machine

/-- Settles O1: `resetState` is that update, and the values it draws for `CH` are the sixteen asked for. -/
theorem resetInitialisesEveryRegister : Obligations.ResetInitialisesEveryRegister :=
  fun s => ⟨Config.chReset s.chDraws, s.chDraws + 1, rfl⟩

/-- Where 26 bytes fit, feeding byte by byte from a quiescent state completes and ends in one. -/
theorem pushAndDrainEach_completes {bs : List Byte} {s : State} (hf : s.fault = .none)
    (hc : capAdmits s.params 26 = true) (hq : Quiescent s) :
    ∃ t, pushAndDrainEach bs s = .next t ∧ Quiescent t ∧ t.fault = .none := by
  induction bs generalizing s with
  | nil => exact ⟨s, rfl, hq, hf⟩
  | cons b bs ih =>
    have happ : appendBytes [b] s = .next (addTail [b] s) := appendBytes_of_capAdmits hf (capAdmits_mono hq hc)
    have hfb : (addTail [b] s).fault = .none := hf
    obtain ⟨hqd, hfd⟩ := drainState_spec _ hfb
    have hcd : capAdmits (drainState (addTail [b] s)).params 26 = true := by rw [drainState_params hfb]; exact hc
    rw [pushAndDrainEach, happ]
    exact ih hfd hcd hqd

/-- Settles O55: a legal capacity holds one frame, so 26 bytes fit. -/
theorem byteSerialFeedFitsTwentySixBytes : Obligations.ByteSerialFeedFitsTwentySixBytes := by
  intro s bs hf hlegal hq
  have hc : capAdmits s.params 26 = true := (capAdmits_iff ..).2 hlegal.1
  obtain ⟨t, ht, hqt, hft⟩ := pushAndDrainEach_completes hf hc hq
  exact ⟨t, ht, Nat.le_of_lt_succ hqt, hft⟩

end Sys2Proof.Machine
